-- ==== Sys2Proof/Word.lean ====
section
/-! DEFINITION. The word types of the page-table walk engine and their plainest arithmetic (spec/00_scope.md R5, R6). -/

namespace Sys2Proof

/-- One byte of image memory. -/
abbrev Byte := BitVec 8

/-- A 64-bit value: a virtual address, a physical address, a flag set or an entry word
(R5: `VA_BITS = PA_BITS = FLAG_BITS = 64`). All values are unsigned (R6). -/
abbrev Word := BitVec 64

/-- A radix index: it selects one of 512 slots (R5: `INDEX_BITS = 9`, `SLOTS = 512`; R10: `Index`). -/
abbrev Index := BitVec 9

/-- A page offset (R5: `OFFSET_BITS = 12`). -/
abbrev Offset := BitVec 12

/-- The requested-access operand: R is bit 0, W is bit 1, X is bit 2 (R64, `PROT_BITS = 3`). -/
abbrev Prot := BitVec 3

/-- The command word `cmd[196:0]` of R66. -/
abbrev CmdWord := BitVec 197

end Sys2Proof
end

