-- ==== Sys2Proof/Config.lean ====
section
/-! DEFINITION. The parameters of the block with the values this hardware takes (spec/00_scope.md R5). -/

namespace Sys2Proof

/-- Bits of a command word (R66: `cmd[196:0]`). -/
def Config.cmdBits : Nat := 197

/-- `PAGE_SIZE` of R5: bytes in one page. -/
def Config.pageSize : Word := 4096

/-- `ENTRY_BYTES` of R5: bytes in one entry word. -/
def Config.entryBytes : Word := 8

/-- `ROOT_PA` of R5: the value the address counter of a COMMIT starts at (R133), hence the address of the root's page (R134). -/
def Config.rootPa : Word := 0

/-- `INTERMEDIATE_FLAG_MASK` of R5 and R54: bits 0, 1, 2, 3, 4, 5, 7 and 63. -/
def Config.intermediateFlagMask : Word := 0x80000000000000BF

/-- `LEAF_FLAG_MASK` of R5 and R55: bits 0 to 8 and 63.
PRESUMED (unsafe; log entry 8): the spec takes the positions of bits 7 (AttributeTable) and 8 (Global)
from general knowledge (D9, G1) and keeps the mask a parameter. -/
def Config.leafFlagMask : Word := 0x80000000000001FF

/-- `PA_STORE_MASK` of R5: what of a physical address a leaf keeps (R15, R51; bits 63:52 are kept, D10). -/
def Config.paStoreMask : Word := 0xFFFFFFFFFFFFF000

/-- `ENTRY_ADDR_MASK` of R5: the address field, bits 51:12, of an entry word (R60). -/
def Config.entryAddrMask : Word := 0x000FFFFFFFFFF000

/-- The largest number of page-bearing nodes a tree can have, `1 + 512 + 512^2 + 512^3` (R27). -/
def Config.maxPages : Nat := 1 + 512 + 512 ^ 2 + 512 ^ 3

end Sys2Proof
end

