-- ==== Sys2Proof/Syntax.lean ====
section
/-! DEFINITION. The four operations of the engine (spec/00_scope.md R1, R9; spec/opcode_table.json) and the names of the flag bits. -/

namespace Sys2Proof

/-- One constructor per row of the opcode table, carrying exactly the operand fields that R68 says the
operation uses. A field the operation ignores is not part of the instruction. -/
inductive Instr where
  /-- `INDEX va` (R85): the four radix indices and the page offset of a virtual address. -/
  | index (vaddr : Word)
  /-- `INSERT va, pa, flags` (R90): add or update one 4096-byte mapping. -/
  | insert (vaddr paddr flags : Word)
  /-- `TRANSLATE va, prot` (R110): look a virtual address up for a requested access. -/
  | translate (vaddr : Word) (prot : Prot)
  /-- `COMMIT` (R130): serialize and consume the tree. -/
  | commit
deriving DecidableEq, Repr

/-- The named bits of a flag set (R53 to R55). `sizeOrAttributeTable` is bit 7, which is Size in an
intermediate flag set (R54) and AttributeTable in a leaf's (R55). -/
inductive Flag where
  | present | writable | user | writeThrough | cacheDisabled | accessed | dirty | sizeOrAttributeTable | global | noExecute
deriving DecidableEq, Repr

/-- The members of the requested-access set `Prot` (R64). -/
inductive Access where
  | read | write | execute
deriving DecidableEq, Repr

end Sys2Proof
end

