-- ==== Sys2Proof/WellFormed.lean ====
section
/-! DEFINITION. Well-formedness of instructions and of command words (spec/30_encoding.md R66, R69). -/

namespace Sys2Proof

/-- "No operand value is illegal" (R69): every operand has exactly the width of its field (R66) by its type,
so every instruction is well-formed. One arm per constructor, so that a new one must be decided. -/
def Instr.wf : Instr → Bool
  | .index _ => true
  | .insert _ _ _ => true
  | .translate _ _ => true
  | .commit => true

/-- A number is a command word when it fits the 197 bits of `cmd[196:0]` (R66). -/
def isCommandWord (w : Nat) : Bool := decide (w < 2 ^ Config.cmdBits)

end Sys2Proof
end

