-- ==== Sys2Proof/Decode.lean ====
section
/-! DEFINITION. Decoding and encoding of command words (spec/30_encoding.md R66 to R69, R73, R74). -/

namespace Sys2Proof

/-- Field `op`, `cmd[1:0]` (R66). -/
def opField (w : CmdWord) : BitVec 2 := w.extractLsb' 0 2

/-- Field `prot`, `cmd[4:2]` (R66). -/
def protField (w : CmdWord) : Prot := w.extractLsb' 2 3

/-- Field `vaddr`, `cmd[68:5]` (R66). -/
def vaddrField (w : CmdWord) : Word := w.extractLsb' 5 64

/-- Field `paddr`, `cmd[132:69]` (R66). -/
def paddrField (w : CmdWord) : Word := w.extractLsb' 69 64

/-- Field `flags`, `cmd[196:133]` (R66). -/
def flagsField (w : CmdWord) : Word := w.extractLsb' 133 64

/-- The decoder. All four values of `op` are assigned (R67), so it is total and refuses nothing (R69); a
field the operation ignores is dropped (R68). The last case is `op = 0b11`. -/
def decode (w : CmdWord) : Instr :=
  if opField w = 0b00#2 then .index (vaddrField w)
  else if opField w = 0b01#2 then .insert (vaddrField w) (paddrField w) (flagsField w)
  else if opField w = 0b10#2 then .translate (vaddrField w) (protField w)
  else .commit

/-- The operation select of an instruction (R67). -/
def opOf : Instr → BitVec 2
  | .index _ => 0b00#2
  | .insert _ _ _ => 0b01#2
  | .translate _ _ => 0b10#2
  | .commit => 0b11#2

/-- `cmd = {flags, paddr, vaddr, prot, op}` (R66). -/
def packCmd (op : BitVec 2) (prot : Prot) (vaddr paddr flags : Word) : CmdWord :=
  flags ++ paddr ++ vaddr ++ prot ++ op

/-- The encoder. A field the operation ignores is written as 0 (R73). -/
def encode (i : Instr) : CmdWord :=
  match i with
  | .index va => packCmd (opOf i) 0 va 0 0
  | .insert va pa fl => packCmd (opOf i) 0 va pa fl
  | .translate va prot => packCmd (opOf i) prot va 0 0
  | .commit => packCmd (opOf i) 0 0 0 0

/-- Why a number given to the decoder is no command. -/
inductive DecodeError where
  /-- The number has a bit at position 197 or above, where a command word has none (R66). Raised by
  `decodeNumber` alone; safe: the command port cannot carry such a number. -/
  | tooWide
deriving DecidableEq, Repr

/-- The decoder on a number: the bits of the command word, bit 0 least significant. It refuses, by name, a
number that is no 197-bit word, and decodes every other one (R69). DESIGN CHOICE (safe; log entry 10). -/
def decodeNumber (w : Nat) : Except DecodeError Instr :=
  if isCommandWord w then .ok (decode (BitVec.ofNat 197 w)) else .error .tooWide

/-- The instruction the decoder reads from the low `nbits` bits of `w`, numbered as the opcode table numbers
them; every bit from `nbits` on is 0. -/
def decodeTableWord (nbits w : Nat) : Option Instr :=
  match decodeNumber (w % 2 ^ nbits) with
  | .ok i => some i
  | .error _ => none

end Sys2Proof
end

