-- ==== Sys2Proof/Machine/State.lean ====
section
/-! DEFINITION. The state of the engine (spec/10_state.md R10 to R28), its responses (spec/30_encoding.md R71) and the
environment's inputs and the engine's outputs that one step reads and writes (spec/00_scope.md R8, R9). -/

namespace Sys2Proof.Machine

/-- `PHASE` (R10, R18). -/
inductive Phase where
  | buildable
  | consumed
deriving DecidableEq, Repr

/-- A flag set stored in the tree (R10 `Flags64`, R52): a 64-bit word whose named bits are at their entry-word positions. -/
abbrev Flags := Word

/-- A leaf entry, PTE (R15). -/
structure Leaf where
  addr : Word
  flags : Flags
deriving DecidableEq, Repr

/-- The 512 slots of a node, `Index -> Option child` of R10, as plain data: the occupied slots in strictly rising
index order, an index that is not listed being an empty slot. DESIGN CHOICE of the form only (safe; log entry 6). -/
abbrev Slots (α : Type) := List (Index × α)

/-- An intermediate node (R12 to R14): an aggregate flag set and 512 slots, "identical shape at each level,
differing only in what they contain as children". -/
structure Node (α : Type) where
  flags : Flags
  slots : Slots α
deriving DecidableEq, Repr

/-- PT node, "intermediate-1" (R14). -/
abbrev PtNode := Node Leaf

/-- PD node, "intermediate-2" (R13). -/
abbrev PdNode := Node PtNode

/-- PDPT node, "intermediate-3" (R12). -/
abbrev PdptNode := Node PdNode

/-- `ROOT`, the PML4 container (R11): 512 slots and no flag set. -/
structure Root where
  slots : Slots PdptNode
deriving DecidableEq, Repr

/-- The root with 512 empty slots (R26). -/
def Root.empty : Root := { slots := [] }

/-- Byte-addressed image memory (R30, R33) as (address, byte) pairs in the canonical form `Memory.wf`. -/
abbrev Memory := List Host.Cell

/-- The image of R32: the assigned addresses of its pages, in the order of their allocation, and the bytes of
those pages. A byte of a page that `bytes` does not list holds the allocator's zero (R38, R143); an address in no
page of `pages` is not in the image. -/
structure Image where
  pages : List Word
  bytes : Memory
deriving DecidableEq, Repr

/-- The status of a response (R160). -/
inductive Status where
  | ok
  | miss
  | allocFail
  | consumed
deriving DecidableEq, Repr

/-- The response record of R71 as a sum: a field exists only where R71 says it is valid (D21). -/
inductive Response where
  /-- INDEX, status OK (R85). -/
  | indexOk (idx4 idx3 idx2 idx1 : Index) (off : Offset)
  /-- INSERT, status OK (R90). -/
  | insertOk
  /-- TRANSLATE, status OK, with the translated address (R110). -/
  | translateOk (pa : Word)
  /-- TRANSLATE, status MISS: one merged failure that carries nothing else (R114, R161). -/
  | translateMiss
  /-- COMMIT, status OK, with the root's address and the image (R141). -/
  | commitOk (rootPa : Word) (image : Image)
  /-- COMMIT, status ALLOC_FAIL: no output (R142, R162). -/
  | allocFail
  /-- INSERT, TRANSLATE or COMMIT in phase CONSUMED (R163): no other field. -/
  | consumed
deriving DecidableEq, Repr

/-- The answers of the external page allocator to the requests of one COMMIT: R5's parameter `ALLOC`,
`alloc_ok : Nat -> Bool`, as plain data. Request `k` is answered `answers[k]`, and `rest` past the list's end. Every
allocator agrees with such a record on the requests of one COMMIT, which are finitely many (R153). Log entry 2. -/
structure Alloc where
  answers : List Bool
  rest : Bool
deriving DecidableEq, Repr

/-- One move of the host (R8): a command, which comes with the allocator's answers during it (an input of the step,
R8 item 3), or reset, which the host may assert between commands (R180, R182). -/
inductive Input where
  | command (word : CmdWord) (alloc : Alloc)
  | reset
deriving DecidableEq, Repr

/-- The state. `phase` and `root` are the engine's whole architectural state (R10: "There is no other architectural
state"). The other four are the MODEL's own, because a step of the model has no arguments and no results of its own: the
environment's inputs and the engine's outputs (R9: the operands, results, answers and image are no state of the engine).
Log entries 1 to 4. -/
structure State where
  /-- `PHASE` (R18). -/
  phase : Phase
  /-- `ROOT` (R11). -/
  root : Root
  /-- The model's own: the allocator's answers during the current command (R38). -/
  alloc : Alloc
  /-- The model's own: the host's moves still to come, in the order it issues them (R21, R40). -/
  inputs : List Input
  /-- The model's own: the responses given so far, the latest first (R71). -/
  responses : List Response
  /-- The model's own: how many requests the engine has made to the allocator so far (R38, R153). -/
  requests : Nat
deriving DecidableEq, Repr

/-- Why the machine stops with a fault: for no reason at all. "The block raises no exception or trap" (R7, R165), every
command ends with a response (R71), and the three non-OK outcomes are statuses (R160, R164), so this type is empty. -/
inductive Fault where
deriving DecidableEq, Repr

/-- Why an instruction is refused. -/
inductive Refusal where
  /-- An instruction without a meaning in this model. No arm of `exec` answers it: all four operations are modelled.
  Safe: nothing is claimed of a refused instruction. -/
  | notModelled (mnemonic : String)
deriving DecidableEq, Repr

/-- The machine right after reset (R26, R180): BUILDABLE, the root with 512 empty slots, no node and no leaf. The model's
own fields hold what a machine has that nothing was asked of yet. `alloc` is a DESIGN CHOICE (unsafe; log entry 2). -/
def State.reset : State :=
  { phase := .buildable
    root := Root.empty
    alloc := { answers := [], rest := true }
    inputs := []
    responses := []
    requests := 0 }

end Sys2Proof.Machine
end

