-- ==== Sys2Proof/Machine/Ops.lean ====
section
/-! DEFINITION. The named operations over the state: slots, image memory, page allocation, the command port, responses and
the phase check. The machine takes no exception and returns from none (spec/60_exceptions.md R165, R170, R171): an
operation ends by giving a response (R160), and `treeCommand` is the one refusal the spec describes (R163). -/

namespace Sys2Proof.Machine

/-! ## Slots of a node (R11 to R14) -/

/-- `n.slot[i]`. -/
def slotGet {α : Type} : Slots α → Index → Option α
  | [], _ => none
  | (j, c) :: rest, i => if i = j then some c else slotGet rest i

/-- `n.slot[i] := some c`, in place, the list staying in rising index order. -/
def slotSet {α : Type} : Slots α → Index → α → Slots α
  | [], i, c => [(i, c)]
  | (j, d) :: rest, i, c =>
    if i < j then (i, c) :: (j, d) :: rest
    else if i = j then (i, c) :: rest
    else (j, d) :: slotSet rest i c

/-- Put into slot `i` what `f` makes of its old contents. -/
def slotUpdate {α : Type} (xs : Slots α) (i : Index) (f : Option α → α) : Slots α :=
  slotSet xs i (f (slotGet xs i))

/-- `EmptyPdpt`, `EmptyPd`, `EmptyPt` (R94): no flag and 512 empty slots. -/
def emptyNode {α : Type} : Node α := { flags := 0, slots := [] }

/-! ## Image memory (R30 to R36) -/

/-- What a byte that the memory does not list reads as: the allocator's zero fill (R38, R143). -/
def unlistedByte : Byte := 0

/-- The canonical form of a memory: addresses strictly rising, and no entry that reads as an unlisted byte does. -/
abbrev Memory.wf (m : Memory) : Prop :=
  (m.map Prod.fst).Pairwise (· < ·) ∧ ∀ c ∈ m, c.2 ≠ unlistedByte

/-- The byte at an address. -/
def memRead : Memory → Nat → Byte
  | [], _ => unlistedByte
  | c :: m, a => if a = c.1 then c.2 else memRead m a

/-- Put a byte at an address, keeping the canonical form. -/
def memWrite : Memory → Nat → Byte → Memory
  | [], a, v => if v = unlistedByte then [] else [(a, v)]
  | c :: m, a, v =>
    if a < c.1 then (if v = unlistedByte then c :: m else (a, v) :: c :: m)
    else if a = c.1 then (if v = unlistedByte then m else (a, v) :: m)
    else c :: memWrite m a v

/-- Byte `k` of a word in little-endian order, `w[8k+7 : 8k]` (R33). -/
def byteOf (w : Word) (k : Nat) : Byte := w.extractLsb' (8 * k) 8

/-- Bytes `0 .. k-1` of a word to rising addresses. -/
def memWriteBytes (m : Memory) (a : Nat) (w : Word) : Nat → Memory
  | 0 => m
  | k + 1 => memWrite (memWriteBytes m a w k) (a + k) (byteOf w k)

/-- `MemWrite(pa, 8, w)` (R7, R33): the one memory access of the engine (R36). -/
def memWrite64 (m : Memory) (pa : Word) (w : Word) : Memory := memWriteBytes m pa.toNat w 8

/-- The eight bytes from an address as a little-endian word (R33). -/
def memRead64 (m : Memory) (a : Nat) : Word :=
  memRead m (a + 7) ++ memRead m (a + 6) ++ memRead m (a + 5) ++ memRead m (a + 4) ++
    memRead m (a + 3) ++ memRead m (a + 2) ++ memRead m (a + 1) ++ memRead m a

/-- The image before the first page (R130: `image := {}`). -/
def emptyImage : Image := { pages := [], bytes := [] }

/-- `image[pa] := 4096 bytes of 0x00` (R130, R143). -/
def addPage (im : Image) (pa : Word) : Image := { im with pages := im.pages ++ [pa] }

/-- `MemWrite` into an image. -/
def imageWrite64 (im : Image) (pa w : Word) : Image := { im with bytes := memWrite64 im.bytes pa w }

/-- Whether an address lies in a page of the image. -/
def inImage (im : Image) (a : Nat) : Bool :=
  im.pages.any fun p => decide (p.toNat ≤ a) && decide (a < p.toNat + Config.pageSize.toNat)

/-- What a holder of the image reads at an address: the byte, or nothing where the image has no page (R32). -/
def imageByte (im : Image) (a : Nat) : Option Byte :=
  if inImage im a then some (memRead im.bytes a) else none

/-- What a holder of the image reads as the 64-bit word at an address (R33), or nothing where the image has no page. -/
def imageWord (im : Image) (pa : Word) : Option Word :=
  if inImage im pa.toNat && inImage im (pa.toNat + 7) then some (memRead64 im.bytes pa.toNat) else none

/-- Entry word: address and flag set, a 64-bit OR with no shift and no further mask (R60, R137, R138). -/
def entryWord (addr : Word) (flags : Flags) : Word := addr ||| flags

/-- The address of word `i` of the page at `pa`, `pa + 8*i` (R34). -/
def entryAddr (pa : Word) (i : Index) : Word := pa + Config.entryBytes * i.setWidth 64

/-! ## Page allocation (R38, R133) -/

/-- `alloc_ok(k)` (R38). -/
def allocOk (a : Alloc) (k : Nat) : Bool := (a.answers[k]?).getD a.rest

/-- The variables of one running COMMIT (R130): they live within one COMMIT and are no state (R25). -/
structure CommitRun where
  next : Word
  nreq : Nat
  image : Image
deriving DecidableEq, Repr

/-- The variables at the start of every COMMIT (R130, R133). -/
def startRun : CommitRun := { next := Config.rootPa, nreq := 0, image := emptyImage }

/-- `NewPage()` of R130: one request to the allocator; the page's address, or, where the request fails, the number of
requests made, this one included (R142, R153). -/
def newPage (a : Alloc) (c : CommitRun) : Except Nat (Word × CommitRun) :=
  if allocOk a c.nreq then
    .ok (c.next, { next := c.next + Config.pageSize, nreq := c.nreq + 1, image := addPage c.image c.next })
  else .error (c.nreq + 1)

/-- `MemWrite(pa, 8, w)` during a COMMIT. -/
def storeEntry (c : CommitRun) (pa w : Word) : CommitRun := { c with image := imageWrite64 c.image pa w }

/-! ## Responses and the phase check -/

/-- Give the one response of a command (R71). -/
def respond (s : State) (r : Response) : State := { s with responses := r :: s.responses }

/-- The status a response carries (R71, R160). -/
def responseStatus : Response → Status
  | .indexOk _ _ _ _ _ => .ok
  | .insertOk => .ok
  | .translateOk _ => .ok
  | .translateMiss => .miss
  | .commitOk _ _ => .ok
  | .allocFail => .allocFail
  | .consumed => .consumed

/-- The 2-bit code of a status (R160). -/
def statusCode : Status → BitVec 2
  | .ok => 0b00
  | .miss => 0b01
  | .allocFail => 0b10
  | .consumed => 0b11

/-- Replace the tree. -/
def setRoot (s : State) (r : Root) : State := { s with root := r }

/-- Take the tree: `phase := CONSUMED; root := EmptyRoot` (R130, R131, D8; log entry 19). -/
def consumeTree (s : State) : State := { s with phase := .consumed, root := Root.empty }

/-- Record that `n` allocator requests were made (R38). -/
def countRequests (s : State) (n : Nat) : State := { s with requests := s.requests + n }

/-- The check every operation on the tree makes first (R163): in phase CONSUMED it answers status CONSUMED and does
nothing else; in phase BUILDABLE the operation `op` runs. DEDUCED (safe; log entry 11): CONSUMED is a response. -/
def treeCommand (s : State) (op : State → Host.Outcome State Fault Refusal) : Host.Outcome State Fault Refusal :=
  match s.phase with
  | .consumed => .next (respond s .consumed)
  | .buildable => op s

/-! ## The command port (R40) and reset (R180) -/

/-- What a step finds at the host's side of the port. -/
inductive Arrival where
  /-- The host has no further move: the engine waits (R177, R181). -/
  | idle
  /-- Reset, and the moves after it. -/
  | reset (rest : List Input)
  /-- A command, the allocator's answers during it, and the moves after it. -/
  | command (i : Instr) (alloc : Alloc) (rest : List Input)
deriving DecidableEq, Repr

/-- The host's next move, its command word decoded (R67, R69). -/
def arrival (s : State) : Arrival :=
  match s.inputs with
  | [] => .idle
  | .reset :: rest => .reset rest
  | .command w a :: rest => .command (decode w) a rest

/-- The state in which a command runs: it is off the port, and the allocator will answer as it came with (R8, R38). -/
def accept (s : State) (a : Alloc) (rest : List Input) : State := { s with alloc := a, inputs := rest }

/-- Reset between commands (R180, R182): BUILDABLE and the empty root. It produces no response, and it does not touch
images already handed over, which stand in `responses` (R183). -/
def hostReset (s : State) (rest : List Input) : State :=
  { s with phase := .buildable, root := Root.empty, inputs := rest }

/-- Between commands the engine is idle and holds its state (R177). DEDUCED (safe; log entry 5). -/
def waitForHost (s : State) : State := s

/-- Put a command at the front of the host's moves, the allocator answering as the state has it. A number that is no
command word puts nothing there. -/
def placeCommand (s : State) (w : Nat) : State :=
  if isCommandWord w then { s with inputs := .command (BitVec.ofNat 197 w) s.alloc :: s.inputs } else s

end Sys2Proof.Machine
end

