-- ==== Sys2Proof/Machine/Commit.lean ====
section
/-! DEFINITION. COMMIT: serialization to the page format (spec/43_commit.md R130 to R153). -/

namespace Sys2Proof.Machine

/-- The leaf words of a PT node's page at `tpa` (R138): one store per occupied slot, in increasing slot order. -/
def commitLeaves (tpa : Word) : Slots Leaf → CommitRun → CommitRun
  | [], c => c
  | (i, l) :: rest, c => commitLeaves tpa rest (storeEntry c (entryAddr tpa i) (entryWord l.addr l.flags))

/-- A PT node (R130, R135): its page, then its leaf words; leaves get no page. -/
def commitPt (a : Alloc) (n : PtNode) (c : CommitRun) : Except Nat (Word × CommitRun) :=
  match newPage a c with
  | .error k => .error k
  | .ok (tpa, c) => .ok (tpa, commitLeaves tpa n.slots c)

/-- The children of a node whose page is at `ppa`, in increasing slot order (R132, R135): each child's whole subtree
(`child`, which answers the child's page), then the child's entry word in the parent's page (R137). -/
def commitChildren {α : Type} (child : Node α → CommitRun → Except Nat (Word × CommitRun)) (ppa : Word) :
    Slots (Node α) → CommitRun → Except Nat CommitRun
  | [], c => .ok c
  | (i, n) :: rest, c =>
    match child n c with
    | .error k => .error k
    | .ok (cpa, c) => commitChildren child ppa rest (storeEntry c (entryAddr ppa i) (entryWord cpa n.flags))

/-- A page-bearing node with children that bear pages (R132, R135): its own page first, then its children. The same at
the PD level, the PDPT level and the root. -/
def commitPage {α : Type} (a : Alloc) (child : Node α → CommitRun → Except Nat (Word × CommitRun))
    (slots : Slots (Node α)) (c : CommitRun) : Except Nat (Word × CommitRun) :=
  match newPage a c with
  | .error k => .error k
  | .ok (pa, c) =>
    match commitChildren child pa slots c with
    | .error k => .error k
    | .ok c => .ok (pa, c)

/-- A PD node's subtree. -/
def commitPd (a : Alloc) (n : PdNode) (c : CommitRun) : Except Nat (Word × CommitRun) :=
  commitPage a (commitPt a) n.slots c

/-- A PDPT node's subtree. -/
def commitPdpt (a : Alloc) (n : PdptNode) (c : CommitRun) : Except Nat (Word × CommitRun) :=
  commitPage a (commitPd a) n.slots c

/-- The whole tree: the root's address and the final variables, or, at the first failing request, the number of requests
made (R134, R141, R142). -/
def commitTree (a : Alloc) (r : Root) : Except Nat (Word × CommitRun) :=
  commitPage a (commitPdpt a) r.slots startRun

/-- COMMIT (R130): the tree is taken in every outcome (R131); the image is handed over whole, or nothing is (R141, R142). -/
def execCommit (s : State) : Host.Outcome State Fault Refusal :=
  treeCommand s fun s =>
    match commitTree s.alloc s.root with
    | .error k => .next (respond (countRequests (consumeTree s) k) .allocFail)
    | .ok (rootPa, c) => .next (respond (countRequests (consumeTree s) c.nreq) (.commitOk rootPa c.image))

end Sys2Proof.Machine
end

