-- ==== Sys2Proof/Machine/Operands.lean ====
section
/-! DEFINITION. Operand forms: the index functions of a virtual address (spec/40_index.md R80 to R88) and the stored form of a
physical address (spec/30_encoding.md R51). -/

namespace Sys2Proof.Machine

/-- `idx4(va) = (va >> 39) & 0x1FF` (R80): selects a slot of the root. -/
def idx4 (va : Word) : Index := ((va >>> 39) &&& 0x1FF#64).setWidth 9

/-- `idx3(va) = (va >> 30) & 0x1FF` (R81): selects a slot of a PDPT node. -/
def idx3 (va : Word) : Index := ((va >>> 30) &&& 0x1FF#64).setWidth 9

/-- `idx2(va) = (va >> 21) & 0x1FF` (R82): selects a slot of a PD node. -/
def idx2 (va : Word) : Index := ((va >>> 21) &&& 0x1FF#64).setWidth 9

/-- `idx1(va) = (va >> 12) & 0x1FF` (R83): selects a slot of a PT node, that is a leaf. -/
def idx1 (va : Word) : Index := ((va >>> 12) &&& 0x1FF#64).setWidth 9

/-- `off(va) = va & 0xFFF` (R84): the page offset. -/
def off (va : Word) : Offset := (va &&& 0xFFF#64).setWidth 12

/-- `paddr & PA_STORE_MASK`, the address a leaf keeps of a physical-address operand (R51, R95). -/
def storedAddr (pa : Word) : Word := pa &&& Config.paStoreMask

/-- `l.addr + zext_64(off(vaddr))`, the address a walk ends at (R116). -/
def resultAddr (base va : Word) : Word := base + (off va).setWidth 64

end Sys2Proof.Machine
end

