-- ==== Sys2Proof/Machine/Index.lean ====
section
/-! DEFINITION. INDEX (spec/40_index.md R85). -/

namespace Sys2Proof.Machine

/-- INDEX (R85): the five fields of the virtual address. It reads neither the tree nor the phase, so it is legal and
answers the same in both phases. -/
def execIndex (vaddr : Word) (s : State) : Host.Outcome State Fault Refusal :=
  .next (respond s (.indexOk (idx4 vaddr) (idx3 vaddr) (idx2 vaddr) (idx1 vaddr) (off vaddr)))

end Sys2Proof.Machine
end

