-- ==== Sys2Proof/Machine/Flags.lean ====
section
/-! DEFINITION. Flag sets, requested access and the per-level permission check (spec/30_encoding.md R52 to R58, R64, R65;
spec/42_translate.md R110, R112). -/

namespace Sys2Proof.Machine

/-- The bit position of a named flag (R53 to R55). -/
def flagBit : Flag → Nat
  | .present => 0
  | .writable => 1
  | .user => 2
  | .writeThrough => 3
  | .cacheDisabled => 4
  | .accessed => 5
  | .dirty => 6
  | .sizeOrAttributeTable => 7
  | .global => 8
  | .noExecute => 63

/-- The value of a named flag as a mask (R53 to R55). -/
def flagMask (b : Flag) : Flags := 1#64 <<< flagBit b

/-- `has(f, B)`, the source's "contains" (R7, R56). -/
def has (f : Flags) (b : Flag) : Bool := f.getLsbD (flagBit b)

/-- `trunc_I(f)` (R7, R57): what of a flag operand an intermediate node keeps. -/
def truncI (f : Word) : Flags := f &&& Config.intermediateFlagMask

/-- `trunc_L(f)` (R7, R57): what of a flag operand a leaf keeps. -/
def truncL (f : Word) : Flags := f &&& Config.leafFlagMask

/-- Union of flag sets, the 64-bit OR (R56). -/
def flagUnion (f g : Flags) : Flags := f ||| g

/-- The bit position of a member of `Prot` (R64). -/
def accessBit : Access → Nat
  | .read => 0
  | .write => 1
  | .execute => 2

/-- Whether a request includes an access (R64). -/
def wants (prot : Prot) (a : Access) : Bool := prot.getLsbD (accessBit a)

/-- The per-level check `allow(f, prot)` of R110: Present always, Writable for a Write request, no NX for an Execute
request. The Read bit conditions nothing (R65). -/
def allow (f : Flags) (prot : Prot) : Bool :=
  if !has f .present then false
  else if wants prot .write && !has f .writable then false
  else if wants prot .execute && has f .noExecute then false
  else true

end Sys2Proof.Machine
end

