-- ==== Sys2Proof/Machine/Insert.lean ====
section
/-! DEFINITION. INSERT and flag propagation (spec/41_insert.md R90 to R104). -/

namespace Sys2Proof.Machine

/-- The intermediate step, the same at levels 4, 3 and 2 (R93): the child in the slot, or an empty node if there is none
(R94), gets the truncated flags united into its aggregate flags, and the walk goes on (`below`) in its slots. -/
def passThrough {α : Type} (flags : Word) (below : Slots α → Slots α) (old : Option (Node α)) : Node α :=
  let n := old.getD emptyNode
  { flags := flagUnion n.flags (truncI flags), slots := below n.slots }

/-- The leaf step (R95): the address is replaced, the flags are the union of the old ones, if any, and the new. -/
def leafStep (paddr flags : Word) (old : Option Leaf) : Leaf :=
  { addr := storedAddr paddr
    flags := flagUnion ((old.map Leaf.flags).getD 0) (truncL flags) }

/-- The tree after an INSERT (R90). -/
def insertTree (r : Root) (vaddr paddr flags : Word) : Root :=
  { slots :=
      slotUpdate r.slots (idx4 vaddr) (passThrough flags fun pdpt =>
        slotUpdate pdpt (idx3 vaddr) (passThrough flags fun pd =>
          slotUpdate pd (idx2 vaddr) (passThrough flags fun pt =>
            slotUpdate pt (idx1 vaddr) (leafStep paddr flags)))) }

/-- INSERT (R90). -/
def execInsert (vaddr paddr flags : Word) (s : State) : Host.Outcome State Fault Refusal :=
  treeCommand s fun s => .next (respond (setRoot s (insertTree s.root vaddr paddr flags)) .insertOk)

end Sys2Proof.Machine
end

