-- ==== Sys2Proof/Machine/Translate.lean ====
section
/-! DEFINITION. TRANSLATE and the permission-check pipeline (spec/42_translate.md R110 to R123). -/

namespace Sys2Proof.Machine

/-- One level of the walk (R110, R112): the child in the slot, if there is one and its own flag set allows the request. -/
def enter {α : Type} (flagsOf : α → Flags) (prot : Prot) (slots : Slots α) (i : Index) : Option α :=
  match slotGet slots i with
  | none => none
  | some c => if allow (flagsOf c) prot then some c else none

/-- The leaf a walk ends at, every level checked, outer to inner (R110, R112, R113). -/
def walk (r : Root) (vaddr : Word) (prot : Prot) : Option Leaf :=
  match enter Node.flags prot r.slots (idx4 vaddr) with
  | none => none
  | some pdpt =>
    match enter Node.flags prot pdpt.slots (idx3 vaddr) with
    | none => none
    | some pd =>
      match enter Node.flags prot pd.slots (idx2 vaddr) with
      | none => none
      | some pt => enter Leaf.flags prot pt.slots (idx1 vaddr)

/-- The response to a TRANSLATE in phase BUILDABLE (R110, R114, R116). -/
def translateResponse (r : Root) (vaddr : Word) (prot : Prot) : Response :=
  match walk r vaddr prot with
  | none => .translateMiss
  | some l => .translateOk (resultAddr l.addr vaddr)

/-- TRANSLATE (R110): read-only (R111). -/
def execTranslate (vaddr : Word) (prot : Prot) (s : State) : Host.Outcome State Fault Refusal :=
  treeCommand s fun s => .next (respond s (translateResponse s.root vaddr prot))

end Sys2Proof.Machine
end

