-- ==== Sys2Proof/Machine/Dispatch.lean ====
section
/-! DEFINITION. One arm per operation of the engine. -/

namespace Sys2Proof.Machine

def exec (i : Instr) (s : State) : Host.Outcome State Fault Refusal :=
  match i with
  | .index va => Sys2Proof.Machine.execIndex va s
  | .insert va pa fl => Sys2Proof.Machine.execInsert va pa fl s
  | .translate va prot => Sys2Proof.Machine.execTranslate va prot s
  | .commit => Sys2Proof.Machine.execCommit s

end Sys2Proof.Machine
end

