-- ==== Sys2Proof/Machine/Step.lean ====
section
/-! DEFINITION. One step of the machine: the host's next move (spec/00_scope.md R8, spec/20_memory.md R40). -/

namespace Sys2Proof.Machine

/-- One step: the host's next move, taken whole (R40). A command runs to completion; reset happens between commands; with
no move to come the engine waits. -/
def step (s : State) : Host.Outcome State Fault Refusal :=
  match arrival s with
  | .idle => .next (waitForHost s)
  | .reset rest => .next (hostReset s rest)
  | .command i a rest => exec i (accept s a rest)

/-- The host issues, as its next move, the command whose bits are the low `nbits` bits of `w` (log entry 9). -/
def State.withFetchWord (s : State) (nbits w : Nat) : State := placeCommand s (w % 2 ^ nbits)

end Sys2Proof.Machine
end

