-- ==== Sys2Proof/Safety.lean ====
section
/-! DEFINITION. What claims about the engine are stated in: the flat view of the tree, the invariant of reachable states, the
pages and entry words the spec gives a tree, a walk over an image, and what proper use of the engine is. -/

namespace Sys2Proof.Machine

/-! ## The flat view of the tree (R17) -/

/-- The PDPT node at path prefix `(i4)`. -/
def pdptAt (r : Root) (i4 : Index) : Option PdptNode := slotGet r.slots i4

/-- The PD node at path prefix `(i4, i3)`. -/
def pdAt (r : Root) (i4 i3 : Index) : Option PdNode := (pdptAt r i4).bind fun n => slotGet n.slots i3

/-- The PT node at path prefix `(i4, i3, i2)`. -/
def ptAt (r : Root) (i4 i3 i2 : Index) : Option PtNode := (pdAt r i4 i3).bind fun n => slotGet n.slots i2

/-- `LF` of R17: the leaf at path `(i4, i3, i2, i1)`. -/
def leafAt (r : Root) (i4 i3 i2 i1 : Index) : Option Leaf := (ptAt r i4 i3 i2).bind fun n => slotGet n.slots i1

/-- `N3` of R17: the aggregate flags of the PDPT node at `(i4)`, if it exists. -/
def pdptFlags (r : Root) (i4 : Index) : Option Flags := (pdptAt r i4).map Node.flags

/-- `N2` of R17: the aggregate flags of the PD node at `(i4, i3)`, if it exists. -/
def pdFlags (r : Root) (i4 i3 : Index) : Option Flags := (pdAt r i4 i3).map Node.flags

/-- `N1` of R17: the aggregate flags of the PT node at `(i4, i3, i2)`, if it exists. -/
def ptFlags (r : Root) (i4 i3 i2 : Index) : Option Flags := (ptAt r i4 i3 i2).map Node.flags

/-- The flags of the leaf at a path, if it exists. -/
def leafFlags (r : Root) (i4 i3 i2 i1 : Index) : Option Flags := (leafAt r i4 i3 i2 i1).map Leaf.flags

/-- Two virtual addresses with the same four indices, that is on the same page for the engine (R87 item 4, R88). -/
def samePath (v w : Word) : Prop := idx4 v = idx4 w ∧ idx3 v = idx3 w ∧ idx2 v = idx2 w ∧ idx1 v = idx1 w

/-- A flag set, where there is one, has not lost a bit (R96: `F' & F = F`). -/
def widened : Option Flags → Option Flags → Prop
  | none, _ => True
  | some f, some g => g &&& f = f
  | some _, none => False

/-- From tree `r` to tree `q` no node and no leaf is gone and no flag set has lost a bit (R19, R96). -/
def treeWidened (r q : Root) : Prop :=
  (∀ i4, widened (pdptFlags r i4) (pdptFlags q i4)) ∧
  (∀ i4 i3, widened (pdFlags r i4 i3) (pdFlags q i4 i3)) ∧
  (∀ i4 i3 i2, widened (ptFlags r i4 i3 i2) (ptFlags q i4 i3 i2)) ∧
  (∀ i4 i3 i2 i1, widened (leafFlags r i4 i3 i2 i1) (leafFlags q i4 i3 i2 i1))

/-! ## The invariant (R12 to R18, R27, R37) -/

/-- `f` has no bit that `g` lacks. -/
def subFlags (f g : Flags) : Bool := f &&& ~~~g == 0

/-- The listed slots are in strictly rising index order, so no slot is listed twice. -/
def risingSlots {α : Type} (xs : Slots α) : Bool := decide ((xs.map fun e => e.1.toNat).Pairwise (· < ·))

/-- A leaf: a page-aligned address and no flag outside the leaf mask (R15). -/
def leafOk (l : Leaf) : Bool := l.addr &&& ~~~Config.paStoreMask == 0 && subFlags l.flags Config.leafFlagMask

/-- An intermediate node: no flag outside the intermediate mask (R12 to R14), at least one occupied slot (R16 item 2),
its children well-formed, and no child's intermediate flags beyond its own (R16 item 6). -/
def nodeOk {α : Type} (childOk : α → Bool) (childFlags : α → Flags) (n : Node α) : Bool :=
  subFlags n.flags Config.intermediateFlagMask && risingSlots n.slots && !n.slots.isEmpty &&
    n.slots.all fun e => childOk e.2 && subFlags (childFlags e.2) n.flags

/-- A well-formed PT node and its leaves. -/
def ptOk (n : PtNode) : Bool := nodeOk leafOk (fun l => truncI l.flags) n

/-- A well-formed PD node and all below it. -/
def pdOk (n : PdNode) : Bool := nodeOk ptOk Node.flags n

/-- A well-formed PDPT node and all below it. -/
def pdptOk (n : PdptNode) : Bool := nodeOk pdOk Node.flags n

/-- A well-formed tree. -/
def rootOk (r : Root) : Bool := risingSlots r.slots && r.slots.all fun e => pdptOk e.2

/-- The addresses of the first `n` pages of a COMMIT: `0, 4096, …, 4096*(n-1)` (R37, R141). -/
def pageAddrs (n : Nat) : List Word := (List.range n).map fun k => BitVec.ofNat 64 (4096 * k)

/-- A well-formed image: at least the root's page, consecutive pages from 0, no more of them than a tree has (R27), and
its bytes in canonical form, all of them in its pages (R32, R37). -/
def imageOk (im : Image) : Bool :=
  im.pages == pageAddrs im.pages.length && decide (0 < im.pages.length) && decide (im.pages.length ≤ Config.maxPages) &&
    decide (Memory.wf im.bytes) && im.bytes.all fun c => inImage im c.1

/-- A response carries a root address of 0 and a well-formed image where it carries them (R141). -/
def responseOk : Response → Bool
  | .commitOk rootPa im => rootPa == 0 && imageOk im
  | _ => true

/-- The invariant of the machine: the tree is well-formed, there is none in phase CONSUMED (R18, D8), and every image
handed over is well-formed. -/
def stateOk (s : State) : Bool :=
  rootOk s.root && (s.phase == .buildable || s.root == Root.empty) && s.responses.all responseOk

/-! ## Pages and entry words (R132 to R144) -/

/-- The PDPT nodes of a tree. -/
def pdptNodes (r : Root) : List PdptNode := r.slots.map Prod.snd

/-- The PD nodes of a tree. -/
def pdNodes (r : Root) : List PdNode := (pdptNodes r).flatMap fun n => n.slots.map Prod.snd

/-- The PT nodes of a tree. -/
def ptNodes (r : Root) : List PtNode := (pdNodes r).flatMap fun n => n.slots.map Prod.snd

/-- The leaves of a tree. -/
def leaves (r : Root) : List Leaf := (ptNodes r).flatMap fun n => n.slots.map Prod.snd

/-- `N`, the number of page-bearing nodes (R144): the root and the nodes of the three intermediate levels. -/
def pageCount (r : Root) : Nat := 1 + (pdptNodes r).length + (pdNodes r).length + (ptNodes r).length

/-- The path prefixes of the page-bearing nodes (R133): `()` for the root, `(i4)`, `(i4, i3)`, `(i4, i3, i2)`. -/
def nodePaths (r : Root) : List (List Index) :=
  [] :: r.slots.flatMap fun p =>
    [p.1] :: p.2.slots.flatMap fun d =>
      [p.1, d.1] :: d.2.slots.map fun t => [p.1, d.1, t.1]

/-- A node's rank among the existing nodes "in the lexicographic order of prefixes in which a proper prefix precedes its
extensions" (R133). -/
def rankOf (r : Root) (p : List Index) : Nat := ((nodePaths r).filter fun q => decide (q < p)).length

/-- The physical address COMMIT assigns to the page of the node at a path prefix, `4096 * rank` (R133). -/
def pageOf (r : Root) (p : List Index) : Word := BitVec.ofNat 64 (4096 * rankOf r p)

/-- The entry word the spec gives slot `i` of the node at a path prefix: 0 for an empty slot (R143), the child's page
address OR its flags at the root, a PDPT and a PD node (R137), the leaf's address OR its flags at a PT node (R138). -/
def expectedWord (r : Root) : List Index → Index → Word
  | [], i => match pdptFlags r i with
    | none => 0
    | some f => pageOf r [i] ||| f
  | [i4], i => match pdFlags r i4 i with
    | none => 0
    | some f => pageOf r [i4, i] ||| f
  | [i4, i3], i => match ptFlags r i4 i3 i with
    | none => 0
    | some f => pageOf r [i4, i3, i] ||| f
  | [i4, i3, i2], i => match leafAt r i4 i3 i2 i with
    | none => 0
    | some l => l.addr ||| l.flags
  | _, _ => 0

/-- The allocator answers every one of the first `n` requests with `ok` (R153). -/
def allocAll (a : Alloc) (n : Nat) : Prop := ∀ k < n, allocOk a k = true

/-- Request `k` is the first that the allocator fails (R153). -/
def allocFailsFirst (a : Alloc) (k : Nat) : Prop := allocOk a k = false ∧ ∀ j < k, allocOk a j = true

/-! ## A walk over the image (R150 item 2) -/

/-- One level of the walk: the word at `page + 8*index`, if the check `allow` passes on it (R150). -/
def imageEntry (im : Image) (prot : Prot) (page : Word) (i : Index) : Option Word :=
  match imageWord im (page + 8 * i.setWidth 64) with
  | none => none
  | some w => if allow w prot then some w else none

/-- The four-level walk of R150 item 2 over an image from the root's address. It is no operation of the engine. -/
def imageWalk (im : Image) (rootPa va : Word) (prot : Prot) : Option Word :=
  (imageEntry im prot rootPa (idx4 va)).bind fun w4 =>
    (imageEntry im prot (w4 &&& Config.entryAddrMask) (idx3 va)).bind fun w3 =>
      (imageEntry im prot (w3 &&& Config.entryAddrMask) (idx2 va)).bind fun w2 =>
        (imageEntry im prot (w2 &&& Config.entryAddrMask) (idx1 va)).bind fun w1 =>
          some ((w1 &&& Config.entryAddrMask) + (off va).setWidth 64)

/-- Every leaf address fits the entry format, `paddr < 2^52` (R139, R150, U1). -/
def leavesFit (r : Root) : Bool := (leaves r).all fun l => decide (l.addr.toNat < 2 ^ 52)

/-! ## The history of a tree (R16, R102) -/

/-- The operands of one INSERT. -/
structure InsertOp where
  vaddr : Word
  paddr : Word
  flags : Word
deriving DecidableEq, Repr

/-- The host's move that issues an INSERT. -/
def insertMove (a : Alloc) (x : InsertOp) : Input := .command (encode (.insert x.vaddr x.paddr x.flags)) a

/-- The union of the flag operands, each truncated by `mask`, of the INSERTs that `via` picks; nothing if it picks none. -/
def unionOf (mask : Word) (via : InsertOp → Bool) (xs : List InsertOp) : Option Flags :=
  match xs.filter via with
  | [] => none
  | ys => some (ys.foldl (fun f y => f ||| (y.flags &&& mask)) 0)

/-- The stored address of the last INSERT that `via` picks. -/
def lastAddr (via : InsertOp → Bool) (xs : List InsertOp) : Option Word :=
  (xs.filter via).getLast?.map fun y => y.paddr &&& Config.paStoreMask

/-- INSERT `x` goes through the PDPT node at `(i4)`. -/
def viaPdpt (i4 : Index) (x : InsertOp) : Bool := idx4 x.vaddr == i4

/-- INSERT `x` goes through the PD node at `(i4, i3)`. -/
def viaPd (i4 i3 : Index) (x : InsertOp) : Bool := viaPdpt i4 x && idx3 x.vaddr == i3

/-- INSERT `x` goes through the PT node at `(i4, i3, i2)`. -/
def viaPt (i4 i3 i2 : Index) (x : InsertOp) : Bool := viaPd i4 i3 x && idx2 x.vaddr == i2

/-- INSERT `x` ends at the leaf `(i4, i3, i2, i1)`. -/
def viaLeaf (i4 i3 i2 i1 : Index) (x : InsertOp) : Bool := viaPt i4 i3 i2 x && idx1 x.vaddr == i1

/-- The tree `r` is what R16 items 2 to 5 say of a tree that exactly the INSERTs `xs` have built. -/
def builtBy (xs : List InsertOp) (r : Root) : Prop :=
  (∀ i4, pdptFlags r i4 = unionOf Config.intermediateFlagMask (viaPdpt i4) xs) ∧
  (∀ i4 i3, pdFlags r i4 i3 = unionOf Config.intermediateFlagMask (viaPd i4 i3) xs) ∧
  (∀ i4 i3 i2, ptFlags r i4 i3 i2 = unionOf Config.intermediateFlagMask (viaPt i4 i3 i2) xs) ∧
  (∀ i4 i3 i2 i1, leafFlags r i4 i3 i2 i1 = unionOf Config.leafFlagMask (viaLeaf i4 i3 i2 i1) xs) ∧
  (∀ i4 i3 i2 i1, (leafAt r i4 i3 i2 i1).map Leaf.addr = lastAddr (viaLeaf i4 i3 i2 i1) xs)

/-- The INSERTs that have built the tree after the next step, if `xs` have built it before: an INSERT that runs is one more,
and a COMMIT that runs, or reset, leaves a tree that none has built (R18, R19, R180). -/
def historyAfter (s : State) (xs : List InsertOp) : List InsertOp :=
  match arrival s, s.phase with
  | .idle, _ => xs
  | .reset _, _ => []
  | .command (.index _) _ _, _ => xs
  | .command (.insert va pa f) _ _, .buildable => xs ++ [⟨va, pa, f⟩]
  | .command (.insert _ _ _) _ _, .consumed => xs
  | .command (.translate _ _) _ _, _ => xs
  | .command .commit _ _, .buildable => []
  | .command .commit _ _, .consumed => xs

/-! ## What the walk can see (R112) -/

/-- A tree with `g` applied to every flag set. -/
def mapFlags (g : Flags → Flags) (r : Root) : Root :=
  { slots := r.slots.map fun p => (p.1,
      { flags := g p.2.flags, slots := p.2.slots.map fun d => (d.1,
        { flags := g d.2.flags, slots := d.2.slots.map fun t => (t.1,
          { flags := g t.2.flags, slots := t.2.slots.map fun l => (l.1,
            { addr := l.2.addr, flags := g l.2.flags }) }) }) }) }

/-- All four slots on the path of `va` are occupied and every level's own flag set allows the request (R113, R166). -/
def allowedPath (r : Root) (va : Word) (prot : Prot) : Prop :=
  ∃ pdpt pd pt l,
    pdptAt r (idx4 va) = some pdpt ∧ pdAt r (idx4 va) (idx3 va) = some pd ∧
    ptAt r (idx4 va) (idx3 va) (idx2 va) = some pt ∧ leafAt r (idx4 va) (idx3 va) (idx2 va) (idx1 va) = some l ∧
    allow pdpt.flags prot = true ∧ allow pd.flags prot = true ∧ allow pt.flags prot = true ∧ allow l.flags prot = true

/-- The tree `q` is what R93 to R95 and R99 say an INSERT makes of the tree `r`, in the flat view of R17: on its path the
old flags (none, where there was no node) OR the truncated operand, and at its end the leaf with the page-aligned new
address; every other node and leaf as it was. -/
def insertedInto (va pa f : Word) (r q : Root) : Prop :=
  (∀ i4, pdptFlags q i4 =
    if i4 = idx4 va then some ((pdptFlags r i4).getD 0 ||| (f &&& Config.intermediateFlagMask))
    else pdptFlags r i4) ∧
  (∀ i4 i3, pdFlags q i4 i3 =
    if i4 = idx4 va ∧ i3 = idx3 va then some ((pdFlags r i4 i3).getD 0 ||| (f &&& Config.intermediateFlagMask))
    else pdFlags r i4 i3) ∧
  (∀ i4 i3 i2, ptFlags q i4 i3 i2 =
    if i4 = idx4 va ∧ i3 = idx3 va ∧ i2 = idx2 va
    then some ((ptFlags r i4 i3 i2).getD 0 ||| (f &&& Config.intermediateFlagMask))
    else ptFlags r i4 i3 i2) ∧
  (∀ i4 i3 i2 i1, leafAt q i4 i3 i2 i1 =
    if i4 = idx4 va ∧ i3 = idx3 va ∧ i2 = idx2 va ∧ i1 = idx1 va
    then some { addr := pa &&& 0xFFFFFFFFFFFFF000#64
                flags := (leafFlags r i4 i3 i2 i1).getD 0 ||| (f &&& Config.leafFlagMask) }
    else leafAt r i4 i3 i2 i1)

/-- The row of the outcome table (R166) of an operation: from state `s` it answers response `r`, with the outputs the row
lists, and ends in state `t`. -/
def outcomeRow (i : Instr) (s : State) (r : Response) (t : State) : Prop :=
  match i, s.phase with
  | .index va, _ =>
    r = .indexOk (va.extractLsb' 39 9) (va.extractLsb' 30 9) (va.extractLsb' 21 9) (va.extractLsb' 12 9)
        (va.extractLsb' 0 12) ∧
      t = { s with responses := r :: s.responses }
  | .insert va pa f, .buildable =>
    r = .insertOk ∧ insertedInto va pa f s.root t.root ∧ t = { s with root := t.root, responses := r :: s.responses }
  | .insert _ _ _, .consumed => r = .consumed ∧ t = { s with responses := r :: s.responses }
  | .translate va prot, .buildable =>
    t = { s with responses := r :: s.responses } ∧
      (allowedPath s.root va prot → ∃ l, leafAt s.root (idx4 va) (idx3 va) (idx2 va) (idx1 va) = some l ∧
        r = .translateOk (l.addr + (va.extractLsb' 0 12).setWidth 64)) ∧
      (¬ allowedPath s.root va prot → r = .translateMiss)
  | .translate _ _, .consumed => r = .consumed ∧ t = { s with responses := r :: s.responses }
  | .commit, .buildable =>
    t = { s with phase := .consumed, root := Root.empty, responses := r :: s.responses, requests := t.requests } ∧
      (allocAll s.alloc (pageCount s.root) →
        (∃ im, r = .commitOk 0 im) ∧ t.requests = s.requests + pageCount s.root) ∧
      (¬ allocAll s.alloc (pageCount s.root) →
        r = .allocFail ∧ ∃ k < pageCount s.root, allocFailsFirst s.alloc k ∧ t.requests = s.requests + (k + 1))
  | .commit, .consumed => r = .consumed ∧ t = { s with responses := r :: s.responses }

/-! ## Proper use (R189, R190, U2) -/

/-- The host issues no INSERT, TRANSLATE or COMMIT after a COMMIT without a reset between (R189 item 2), starting in a
given phase. -/
def properUse : Phase → List Input → Bool
  | _, [] => true
  | _, .reset :: rest => properUse .buildable rest
  | ph, .command w _ :: rest =>
    match decode w with
    | .index _ => properUse ph rest
    | .insert _ _ _ => ph == .buildable && properUse ph rest
    | .translate _ _ => ph == .buildable && properUse ph rest
    | .commit => ph == .buildable && properUse .consumed rest

end Sys2Proof.Machine
end

