-- ==== Sys2Proof/Certificates/Slice0/Obligations.lean ====
section
/-! DEFINITION. The statements about the engine, each a `Prop` without proof. -/

open Sys2Proof Sys2Proof.Machine

/-! ## INDEX and the index functions -/

/-- R85: in every state, of either phase, INDEX answers the five bit fields of the address with status OK and changes
nothing else. -/
def Obligations.IndexAnswersTheFiveFields : Prop :=
  ∀ (va : Word) (s : State), exec (.index va) s = .next { s with
    responses := .indexOk (va.extractLsb' 39 9) (va.extractLsb' 30 9) (va.extractLsb' 21 9) (va.extractLsb' 12 9)
      (va.extractLsb' 0 12) :: s.responses }

/-- R80 to R84 and the general form of R86: each index function is both the shift-and-mask form and the bit range. -/
def Obligations.IndexFunctionsAreShiftsAndBitRanges : Prop :=
  ∀ va : Word,
    (idx4 va = va.extractLsb' 39 9 ∧ (idx4 va).setWidth 64 = (va >>> (12 + 9 * (4 - 1))) &&& 0x1FF#64) ∧
    (idx3 va = va.extractLsb' 30 9 ∧ (idx3 va).setWidth 64 = (va >>> (12 + 9 * (3 - 1))) &&& 0x1FF#64) ∧
    (idx2 va = va.extractLsb' 21 9 ∧ (idx2 va).setWidth 64 = (va >>> (12 + 9 * (2 - 1))) &&& 0x1FF#64) ∧
    (idx1 va = va.extractLsb' 12 9 ∧ (idx1 va).setWidth 64 = (va >>> (12 + 9 * (1 - 1))) &&& 0x1FF#64) ∧
    (off va = va.extractLsb' 0 12 ∧ (off va).setWidth 64 = va &&& 0xFFF#64)

/-- R87, its four items: the fields rebuild bits 47:0, ignore bits 63:48, take every combination of values, and agree on
all four indices exactly when bits 47:12 agree. -/
def Obligations.AddressFieldsReconstruct : Prop :=
  (∀ va : Word, va.extractLsb' 0 48 = idx4 va ++ idx3 va ++ idx2 va ++ idx1 va ++ off va) ∧
  (∀ (va : Word) (h : BitVec 16), let v : Word := h ++ va.extractLsb' 0 48
    idx4 v = idx4 va ∧ idx3 v = idx3 va ∧ idx2 v = idx2 va ∧ idx1 v = idx1 va ∧ off v = off va) ∧
  (∀ (i4 i3 i2 i1 : Index) (o : Offset), ∃ va : Word,
    idx4 va = i4 ∧ idx3 va = i3 ∧ idx2 va = i2 ∧ idx1 va = i1 ∧ off va = o) ∧
  (∀ v w : Word, samePath v w ↔ v.extractLsb' 12 36 = w.extractLsb' 12 36)

/-! ## INSERT -/

/-- R93, R94, R95 and the frame of R99: in phase BUILDABLE an INSERT answers OK; the three intermediate nodes on its
path hold their old flags (none, if there was no node) OR the truncated operand; the leaf holds the page-aligned new
address and its old flags OR the truncated operand; every other node and leaf, the phase, the allocator's answers, the
host's further moves, the request count and every image handed over are as before. -/
def Obligations.InsertWritesItsPathAndNothingElse : Prop :=
  ∀ (va pa f : Word) (s : State), s.phase = .buildable →
    ∃ r : Root, exec (.insert va pa f) s = .next { s with root := r, responses := .insertOk :: s.responses } ∧
      insertedInto va pa f s.root r

/-- R98: the second of two identical consecutive INSERTs changes nothing (it only answers OK again). -/
def Obligations.RepeatedInsertChangesNothing : Prop :=
  ∀ (va pa f : Word) (s t : State), s.phase = .buildable → exec (.insert va pa f) s = .next t →
    exec (.insert va pa f) t = .next { t with responses := .insertOk :: t.responses }

/-- R99: two INSERTs that share all indices but the innermost make two independent leaves, and all three ancestors carry
the union of both operands, truncated, on top of what they carried. -/
def Obligations.SiblingsShareAncestorsNotLeaves : Prop :=
  ∀ (v1 p1 f1 v2 p2 f2 : Word) (s t u : State), s.phase = .buildable →
    idx4 v1 = idx4 v2 → idx3 v1 = idx3 v2 → idx2 v1 = idx2 v2 → idx1 v1 ≠ idx1 v2 →
    leafAt s.root (idx4 v1) (idx3 v1) (idx2 v1) (idx1 v1) = none →
    leafAt s.root (idx4 v2) (idx3 v2) (idx2 v2) (idx1 v2) = none →
    exec (.insert v1 p1 f1) s = .next t → exec (.insert v2 p2 f2) t = .next u →
      leafAt u.root (idx4 v1) (idx3 v1) (idx2 v1) (idx1 v1)
        = some { addr := p1 &&& Config.paStoreMask, flags := f1 &&& Config.leafFlagMask } ∧
      leafAt u.root (idx4 v2) (idx3 v2) (idx2 v2) (idx1 v2)
        = some { addr := p2 &&& Config.paStoreMask, flags := f2 &&& Config.leafFlagMask } ∧
      pdptFlags u.root (idx4 v1)
        = some ((pdptFlags s.root (idx4 v1)).getD 0 ||| ((f1 ||| f2) &&& Config.intermediateFlagMask)) ∧
      pdFlags u.root (idx4 v1) (idx3 v1)
        = some ((pdFlags s.root (idx4 v1) (idx3 v1)).getD 0 ||| ((f1 ||| f2) &&& Config.intermediateFlagMask)) ∧
      ptFlags u.root (idx4 v1) (idx3 v1) (idx2 v1)
        = some ((ptFlags s.root (idx4 v1) (idx3 v1) (idx2 v1)).getD 0 |||
            ((f1 ||| f2) &&& Config.intermediateFlagMask))

/-- R16 items 2 to 5: the INSERT commands `xs`, issued one after another to an engine with an empty tree, all run, and
afterwards a node or leaf exists exactly where one of them went, every flag set is the union of the truncated flags of
those that went through, and every leaf's address is the last one's. -/
def Obligations.TreeIsTheUnionOfItsInserts : Prop :=
  ∀ (a : Alloc) (xs : List InsertOp) (s : State), s.phase = .buildable → s.root = Root.empty →
    s.inputs = xs.map (insertMove a) →
    ∃ t : State, Sys2Proof.core.run xs.length s = .next t ∧ t.phase = .buildable ∧ builtBy xs t.root

/-- R102: two sequences of INSERTs with the same set of (path, flags) pairs, from the same tree, lead to the same nodes
and the same flag sets, whatever their order and multiplicity; each leaf's address is that of the sequence's last INSERT
at its path, and the old one if there is none. -/
def Obligations.InsertOrderMattersForAddressesOnly : Prop :=
  ∀ (a b : Alloc) (xs ys : List InsertOp) (s t u v : State),
    s.phase = .buildable → u.phase = .buildable → u.root = s.root →
    s.inputs = xs.map (insertMove a) → u.inputs = ys.map (insertMove b) →
    (∀ x ∈ xs, ∃ y ∈ ys, samePath x.vaddr y.vaddr ∧ y.flags = x.flags) →
    (∀ y ∈ ys, ∃ x ∈ xs, samePath y.vaddr x.vaddr ∧ x.flags = y.flags) →
    Sys2Proof.core.run xs.length s = .next t → Sys2Proof.core.run ys.length u = .next v →
      (∀ i4, pdptFlags t.root i4 = pdptFlags v.root i4) ∧
      (∀ i4 i3, pdFlags t.root i4 i3 = pdFlags v.root i4 i3) ∧
      (∀ i4 i3 i2, ptFlags t.root i4 i3 i2 = ptFlags v.root i4 i3 i2) ∧
      (∀ i4 i3 i2 i1, leafFlags t.root i4 i3 i2 i1 = leafFlags v.root i4 i3 i2 i1) ∧
      (∀ i4 i3 i2 i1, (leafAt t.root i4 i3 i2 i1).map Leaf.addr =
        (lastAddr (viaLeaf i4 i3 i2 i1) xs).or ((leafAt s.root i4 i3 i2 i1).map Leaf.addr))

/-! ## TRANSLATE -/

/-- R110, R111, R113, R116: in phase BUILDABLE, with all four slots on the path occupied, TRANSLATE answers the leaf's
address plus the page offset exactly when every level has Present, has Writable if Write is requested, and no level has
NX if Execute is requested; otherwise, and whenever a slot on the path is empty, it answers MISS. It changes nothing. -/
def Obligations.TranslateAnswersByTheFourLevels : Prop :=
  ∀ (va : Word) (prot : Prot) (s : State), s.phase = .buildable →
    (∀ pdpt pd pt l, pdptAt s.root (idx4 va) = some pdpt → pdAt s.root (idx4 va) (idx3 va) = some pd →
      ptAt s.root (idx4 va) (idx3 va) (idx2 va) = some pt →
      leafAt s.root (idx4 va) (idx3 va) (idx2 va) (idx1 va) = some l →
      exec (.translate va prot) s = .next { s with
        responses :=
          (if (pdpt.flags &&& pd.flags &&& pt.flags &&& l.flags).getLsbD 0 = true ∧
              (prot.getLsbD 1 = false ∨ (pdpt.flags &&& pd.flags &&& pt.flags &&& l.flags).getLsbD 1 = true) ∧
              (prot.getLsbD 2 = false ∨ (pdpt.flags ||| pd.flags ||| pt.flags ||| l.flags).getLsbD 63 = false)
            then Response.translateOk (l.addr + (va.extractLsb' 0 12).setWidth 64)
            else Response.translateMiss) :: s.responses }) ∧
    (leafAt s.root (idx4 va) (idx3 va) (idx2 va) (idx1 va) = none →
      exec (.translate va prot) s = .next { s with responses := .translateMiss :: s.responses })

/-- R113's reduction, in every state of the invariant: on an occupied path Present and Writable are decided by the leaf
alone and Execute by the outermost node's NX alone. -/
def Obligations.TranslateReducesToLeafAndOutermostNx : Prop :=
  ∀ (va : Word) (prot : Prot) (s : State) (pdpt : PdptNode) (l : Leaf), stateOk s = true → s.phase = .buildable →
    pdptAt s.root (idx4 va) = some pdpt → leafAt s.root (idx4 va) (idx3 va) (idx2 va) (idx1 va) = some l →
    exec (.translate va prot) s = .next { s with
      responses :=
        (if l.flags.getLsbD 0 = true ∧ (prot.getLsbD 1 = true → l.flags.getLsbD 1 = true) ∧
            (prot.getLsbD 2 = true → pdpt.flags.getLsbD 63 = false)
          then Response.translateOk (resultAddr l.addr va) else Response.translateMiss) :: s.responses }

/-- R112, R117 to R119, R121: TRANSLATE reads bits 0, 1 and 63 of flag sets and no other: changing any other bit of any
flag set of the tree changes no answer. -/
def Obligations.TranslateReadsThreeFlagBitsOnly : Prop :=
  ∀ (va : Word) (prot : Prot) (s t : State) (g : Flags → Flags),
    (∀ f, (g f).getLsbD 0 = f.getLsbD 0 ∧ (g f).getLsbD 1 = f.getLsbD 1 ∧ (g f).getLsbD 63 = f.getLsbD 63) →
    exec (.translate va prot) s = .next t →
    exec (.translate va prot) { s with root := mapFlags g s.root } = .next { t with root := mapFlags g s.root }

/-- R65: the Read bit of a request selects no check. -/
def Obligations.ReadBitSelectsNoCheck : Prop :=
  ∀ (va : Word) (prot : Prot) (s : State), exec (.translate va (prot ||| 1#3)) s = exec (.translate va prot) s

/-- R122: after an INSERT with Present into a tree with nothing on its path, every address of the page translates to the
stored address plus its own offset for exactly the requests the operand permits, and misses for every other. -/
def Obligations.RoundTripOnAFreshPath : Prop :=
  ∀ (va pa f : Word) (s : State), s.phase = .buildable → pdptAt s.root (idx4 va) = none → f.getLsbD 0 = true →
    ∃ t : State, exec (.insert va pa f) s = .next t ∧
      ∀ (v : Word) (prot : Prot), samePath v va →
        exec (.translate v prot) t = .next { t with
          responses :=
            (if (prot.getLsbD 1 = true → f.getLsbD 1 = true) ∧ (prot.getLsbD 2 = true → f.getLsbD 63 = false)
              then Response.translateOk ((pa &&& Config.paStoreMask) + (off v).setWidth 64)
              else Response.translateMiss) :: t.responses }

/-- R101: once an INSERT with NX has gone through a root slot, an Execute request misses everywhere under that slot, even
after a later INSERT, at any address, of any flags. -/
def Obligations.NxOnASharedAncestorDeniesExecute : Prop :=
  ∀ (v1 p1 f1 v2 p2 f2 v : Word) (prot : Prot) (s t u : State), s.phase = .buildable →
    f1.getLsbD 63 = true → prot.getLsbD 2 = true → idx4 v = idx4 v1 →
    exec (.insert v1 p1 f1) s = .next t → exec (.insert v2 p2 f2) t = .next u →
    exec (.translate v prot) u = .next { u with responses := .translateMiss :: u.responses }

/-- R120, in every state of the invariant: the sum of a successful TRANSLATE never carries: it is the OR, its upper bits
are the leaf's, its low 12 the address's. -/
def Obligations.TranslateSumNeverCarries : Prop :=
  ∀ (va pa : Word) (prot : Prot) (s : State), stateOk s = true → s.phase = .buildable →
    exec (.translate va prot) s = .next { s with responses := .translateOk pa :: s.responses } →
    ∃ l, leafAt s.root (idx4 va) (idx3 va) (idx2 va) (idx1 va) = some l ∧
      l.addr.toNat + (off va).toNat < 2 ^ 64 ∧ pa = l.addr ||| (off va).setWidth 64 ∧
      pa.extractLsb' 12 52 = l.addr.extractLsb' 12 52 ∧ pa.extractLsb' 0 12 = va.extractLsb' 0 12

/-- R41: two TRANSLATEs may be issued in either order: each gets the same answer and the engine ends in the same state. -/
def Obligations.TranslatesCommute : Prop :=
  ∀ (v w : Word) (p q : Prot) (s t u t' u' : State),
    exec (.translate v p) s = .next t → exec (.translate w q) t = .next u →
    exec (.translate w q) s = .next t' → exec (.translate v p) t' = .next u' →
    ∃ rv rw, u = { s with responses := rw :: rv :: s.responses } ∧ u' = { s with responses := rv :: rw :: s.responses }

/-! ## COMMIT -/

/-- R131, R134, R142, R153: in phase BUILDABLE, with `N` page-bearing nodes: if the allocator answers the first `N`
requests with ok, COMMIT makes `N` requests and hands over root address 0 and an image; if request `k < N` is the first it
fails, COMMIT makes `k + 1` requests and hands over nothing. Either way the tree is gone and the phase is CONSUMED, and
nothing else changes. -/
def Obligations.CommitOutcomeAndRequests : Prop :=
  ∀ s : State, s.phase = .buildable →
    (allocAll s.alloc (pageCount s.root) → ∃ im : Image, exec .commit s = .next { s with
      phase := .consumed, root := Root.empty
      responses := .commitOk 0 im :: s.responses, requests := s.requests + pageCount s.root }) ∧
    (∀ k, k < pageCount s.root → allocFailsFirst s.alloc k → exec .commit s = .next { s with
      phase := .consumed, root := Root.empty
      responses := .allocFail :: s.responses, requests := s.requests + (k + 1) })

/-- R141, R144, R147: the pages of the image a COMMIT hands over are exactly `0, 4096, …, 4096*(N-1)`, in the order of
allocation, with `N` the number of page-bearing nodes. -/
def Obligations.CommitPagesAreContiguousFromZero : Prop :=
  ∀ (s t : State) (rootPa : Word) (im : Image), stateOk s = true → s.phase = .buildable →
    exec .commit s = .next t → t.responses = .commitOk rootPa im :: s.responses →
    rootPa = 0 ∧ im.pages = (List.range (pageCount s.root)).map (fun k => BitVec.ofNat 64 (4096 * k)) ∧
      im.pages.Pairwise (· < ·)

/-- R133, R137, R138, R143: in every image a COMMIT hands over, and for every page-bearing node of the tree, each of the
512 words of the node's page (at 4096 times the node's rank in the lexicographic order of path prefixes) is the word the
spec gives the slot: 0 for an empty slot, the child's page address OR its flags, the leaf's address OR its flags. -/
def Obligations.CommitWritesEveryEntryWord : Prop :=
  ∀ s : State, stateOk s = true → s.phase = .buildable → allocAll s.alloc (pageCount s.root) →
    ∃ (im : Image) (t : State), exec .commit s = .next t ∧ t.responses = .commitOk 0 im :: s.responses ∧
      ∀ p ∈ nodePaths s.root, ∀ i : Index,
        imageWord im (pageOf s.root p + 8 * i.setWidth 64) = some (expectedWord s.root p i)

/-- R132, R133: the path prefixes of the page-bearing nodes, listed depth first, a node before its subtree and lower slots
first, are exactly the existing ones and stand in lexicographic order, so that a node's rank is its place in that list. -/
def Obligations.PreorderIsLexicographicOrder : Prop :=
  ∀ s : State, stateOk s = true →
    (nodePaths s.root).Pairwise (· < ·) ∧ (nodePaths s.root).length = pageCount s.root ∧
    (∀ (k : Nat) (p : List Index), (nodePaths s.root)[k]? = some p → rankOf s.root p = k) ∧
    [] ∈ nodePaths s.root ∧
    (∀ i4, [i4] ∈ nodePaths s.root ↔ (pdptAt s.root i4).isSome = true) ∧
    (∀ i4 i3, [i4, i3] ∈ nodePaths s.root ↔ (pdAt s.root i4 i3).isSome = true) ∧
    (∀ i4 i3 i2, [i4, i3, i2] ∈ nodePaths s.root ↔ (ptAt s.root i4 i3 i2).isSome = true) ∧
    (∀ p ∈ nodePaths s.root, p.length ≤ 3)

/-- R150 item 2: if every leaf address is below 2^52, the four-level walk over the image a COMMIT hands over, from its
root address, ends at a physical address exactly when TRANSLATE on the tree answers OK with that address. It rests on the
leaf flag mask having no bit in 51:12 (log entry 8), not on which of bits 11:0 it has. -/
def Obligations.ImageWalkAgreesWithTranslate : Prop :=
  ∀ s : State, stateOk s = true → s.phase = .buildable → leavesFit s.root = true →
    allocAll s.alloc (pageCount s.root) →
    ∃ (im : Image) (t : State), exec .commit s = .next t ∧ t.responses = .commitOk 0 im :: s.responses ∧
      ∀ (va pa : Word) (prot : Prot), imageWalk im 0 va prot = some pa ↔
        exec (.translate va prot) s = .next { s with responses := .translateOk pa :: s.responses }

/-- R140: the OR of an entry word is the sum, and masking gives both parts back: always for a child's page address and an
intermediate flag set, and for a leaf whose address has bit 63 clear (the address part if it is below 2^52). The leaf
clause rests on the value of the leaf flag mask, whose positions 7 and 8 are PRESUMED (log entry 8). -/
def Obligations.EntryWordPartsAreRecoverable : Prop :=
  (∀ (n : Nat) (f : Flags), n < Config.maxPages → subFlags f Config.intermediateFlagMask = true →
    entryWord (BitVec.ofNat 64 (4096 * n)) f = BitVec.ofNat 64 (4096 * n) + f ∧
    entryWord (BitVec.ofNat 64 (4096 * n)) f &&& Config.entryAddrMask = BitVec.ofNat 64 (4096 * n) ∧
    entryWord (BitVec.ofNat 64 (4096 * n)) f &&& Config.intermediateFlagMask = f) ∧
  (∀ l : Leaf, leafOk l = true → l.addr.getLsbD 63 = false →
    entryWord l.addr l.flags = l.addr + l.flags ∧ entryWord l.addr l.flags &&& Config.leafFlagMask = l.flags ∧
    (l.addr.toNat < 2 ^ 52 → entryWord l.addr l.flags &&& Config.entryAddrMask = l.addr))

/-- R58, R61, in every state of the invariant: bits 11:9 of every entry word are 0, and of a non-leaf entry word also
bits 6 and 8. For LEAF entry words this rests on the value of the leaf flag mask, whose positions 7 and 8 are PRESUMED
(log entry 8; D9, G1); for non-leaf ones on the intermediate mask of R54 alone. -/
def Obligations.EntryWordsLeaveUnnamedFlagBitsZero : Prop :=
  ∀ s : State, stateOk s = true → ∀ (p : List Index) (i : Index),
    (expectedWord s.root p i).extractLsb' 9 3 = 0 ∧
    (p.length < 3 → (expectedWord s.root p i).getLsbD 6 = false ∧ (expectedWord s.root p i).getLsbD 8 = false)

/-- R151: COMMIT with an empty tree makes one request and, if it is answered ok, hands over one page of zero bytes. -/
def Obligations.CommitOfTheEmptyTree : Prop :=
  ∀ s : State, s.phase = .buildable → s.root = Root.empty → allocOk s.alloc 0 = true →
    ∃ im : Image, exec .commit s = .next { s with
        phase := .consumed, responses := .commitOk 0 im :: s.responses, requests := s.requests + 1 } ∧
      im.pages = [0] ∧ ∀ a : Nat, imageByte im a = if a < 4096 then some 0 else none

/-- R145: when every allocation succeeds, what COMMIT hands over depends on the tree alone. -/
def Obligations.CommitDependsOnTheTreeAlone : Prop :=
  ∀ s u : State, s.phase = .buildable → u.phase = .buildable → u.root = s.root →
    allocAll s.alloc (pageCount s.root) → allocAll u.alloc (pageCount s.root) →
    ∃ (r : Response) (t v : State), exec .commit s = .next t ∧ exec .commit u = .next v ∧
      t.responses = r :: s.responses ∧ v.responses = r :: u.responses

/-- R152: after any COMMIT, successful or not, a COMMIT answers CONSUMED, makes no request and produces no image. -/
def Obligations.CommitIsOneShot : Prop :=
  ∀ s t : State, exec .commit s = .next t →
    exec .commit t = .next { t with responses := .consumed :: t.responses }

/-- R27, in every state of the invariant: the bounds on the numbers of nodes, leaves and pages and on the largest
assigned address. -/
def Obligations.TreeSizeBounds : Prop :=
  ∀ s : State, stateOk s = true →
    (pdptNodes s.root).length ≤ 512 ∧ (pdNodes s.root).length ≤ 262144 ∧ (ptNodes s.root).length ≤ 134217728 ∧
    (leaves s.root).length ≤ 68719476736 ∧ pageCount s.root ≤ 134480385 ∧
    ∀ k < pageCount s.root, 4096 * k ≤ 550831652864 ∧ 4096 * k < 2 ^ 40

/-- R33: a 64-bit store puts byte `w[8k+7 : 8k]` at address `pa + k` for `k` in 0..7, and every other byte of the image
reads as before. -/
def Obligations.StoresAreLittleEndian : Prop :=
  ∀ (im : Image) (pa w : Word), Memory.wf im.bytes →
    ∀ a : Nat, imageByte (imageWrite64 im pa w) a =
      if pa.toNat ≤ a ∧ a < pa.toNat + 8 then (imageByte im a).map (fun _ => w.extractLsb' (8 * (a - pa.toNat)) 8)
      else imageByte im a

/-! ## Phase, responses, outcomes -/

/-- R163: in phase CONSUMED, INSERT, TRANSLATE and COMMIT answer CONSUMED and change nothing; INDEX is not subject to the
check. -/
def Obligations.TreeCommandsAnswerConsumed : Prop :=
  ∀ s : State, s.phase = .consumed →
    (∀ va pa f, exec (.insert va pa f) s = .next { s with responses := .consumed :: s.responses }) ∧
    (∀ va prot, exec (.translate va prot) s = .next { s with responses := .consumed :: s.responses }) ∧
    exec .commit s = .next { s with responses := .consumed :: s.responses } ∧
    ∀ va, ∃ r, responseStatus r = .ok ∧ exec (.index va) s = .next { s with responses := r :: s.responses }

/-- R166: every operation, in each phase, ends in a next state with exactly one response, and response, outputs and state
after are those of its row of the outcome table: INDEX gives the four indices and the offset, INSERT leaves the tree that
R90 makes, TRANSLATE gives the leaf's address plus the offset or MISS, COMMIT root address 0 and an image or ALLOC_FAIL,
with the requests R153 counts. -/
def Obligations.OutcomeTableHolds : Prop :=
  ∀ (i : Instr) (s : State), ∃ (r : Response) (t : State), exec i s = .next t ∧ outcomeRow i s r t

/-- R160: the four codes, and which operations can give each. -/
def Obligations.StatusCodesAndTheirOperations : Prop :=
  (statusCode .ok = 0b00 ∧ statusCode .miss = 0b01 ∧ statusCode .allocFail = 0b10 ∧ statusCode .consumed = 0b11) ∧
  ∀ (i : Instr) (s t : State), exec i s = .next t → ∃ r, t.responses = r :: s.responses ∧
    (responseStatus r = .miss → opOf i = 0b10) ∧ (responseStatus r = .allocFail → opOf i = 0b11) ∧
    (responseStatus r = .consumed → opOf i ≠ 0b00 ∧ s.phase = .consumed)

/-- R18, R131, R180: COMMIT in phase BUILDABLE and reset change the phase, and no other step does. -/
def Obligations.PhaseChangesByCommitAndResetOnly : Prop :=
  ∀ s t : State, step s = .next t → t.phase ≠ s.phase →
    (s.phase = .buildable ∧ t.phase = .consumed ∧ ∃ w a rest, s.inputs = .command w a :: rest ∧ decode w = .commit) ∨
    (s.phase = .consumed ∧ t.phase = .buildable ∧ ∃ rest, s.inputs = .reset :: rest)

/-- R19, R96: whatever the operation, as long as the tree lives no node and no leaf goes, and every flag set keeps every
bit (`F' & F = F`). -/
def Obligations.TreeOnlyGrowsUntilCommit : Prop :=
  ∀ (i : Instr) (s t : State), exec i s = .next t → t.phase = .buildable → treeWidened s.root t.root

/-- R38, R103: only COMMIT makes allocator requests. -/
def Obligations.OnlyCommitAsksTheAllocator : Prop :=
  ∀ (i : Instr) (s t : State), exec i s = .next t → t.requests ≠ s.requests → i = .commit ∧ s.phase = .buildable

/-- R20, R25: what an operation answers and what it does to the engine depend on the phase, the tree and the allocator's
answers alone: not on earlier responses, on the number of earlier requests or on what the host issues next. -/
def Obligations.NoHiddenState : Prop :=
  ∀ (i : Instr) (s u : State), u.phase = s.phase → u.root = s.root → u.alloc = s.alloc →
    ∃ (ph : Phase) (q : Root) (r : Response) (k : Nat),
      exec i s = .next { s with phase := ph, root := q, responses := r :: s.responses, requests := s.requests + k } ∧
      exec i u = .next { u with phase := ph, root := q, responses := r :: u.responses, requests := u.requests + k }

/-- R183, R186: what was handed over is never touched again: a step, reset included, only puts at most one new response
before the earlier ones, so every byte of every earlier image reads as before. -/
def Obligations.ImagesHandedOverAreNeverTouched : Prop :=
  ∀ s t : State, step s = .next t → ∃ new : List Response, t.responses = new ++ s.responses ∧ new.length ≤ 1

/-- R190, U2: a host that issues no tree command after a COMMIT without a reset between never gets status CONSUMED. -/
def Obligations.ProperUseNeverMeetsConsumed : Prop :=
  ∀ (n : Nat) (s t : State), properUse s.phase s.inputs = true → Sys2Proof.core.run n s = .next t →
    ∃ new : List Response, t.responses = new ++ s.responses ∧ Response.consumed ∉ new

/-! ## Steps, reset, the invariant -/

/-- R40, R66 (the port is the model's own field, log entry 1): with a command as the host's next move, a step is the decoded instruction's meaning in the state with the
command taken off the port and the allocator's answers that came with it. -/
def Obligations.StepRunsTheDecodedCommand : Prop :=
  ∀ (s : State) (w : CmdWord) (a : Alloc) (rest : List Input), s.inputs = .command w a :: rest →
    (decode w).wf = true ∧ step s = exec (decode w) { s with alloc := a, inputs := rest }

/-- R180, R183: reset, between commands, gives the BUILDABLE phase and the empty tree from any state, and touches neither
the responses nor the images in them. -/
def Obligations.ResetGivesTheEmptyTree : Prop :=
  ∀ (s : State) (rest : List Input), s.inputs = .reset :: rest →
    step s = .next { s with phase := .buildable, root := Root.empty, inputs := rest }

/-- R177, R181 (the model's reading, log entry 5): with no move of the host the engine waits and holds its state. -/
def Obligations.EngineWaitsForTheHost : Prop :=
  ∀ s : State, s.inputs = [] → step s = .next s

/-- R26: the state after reset is BUILDABLE, every slot of the root is empty, and no node and no leaf exists. -/
def Obligations.ResetStateIsTheEmptyTree : Prop :=
  State.reset.phase = .buildable ∧ (∀ i4, pdptAt State.reset.root i4 = none) ∧
  (∀ i4 i3, pdAt State.reset.root i4 i3 = none) ∧ (∀ i4 i3 i2, ptAt State.reset.root i4 i3 i2 = none) ∧
  (∀ i4 i3 i2 i1, leafAt State.reset.root i4 i3 i2 i1 = none)

/-- The model's reading of R163 to R165: from every state there is a next one. No step faults (R165, log entry 18). That
none is refused rests on log entry 11 (DEDUCED: status CONSUMED is a response in a next state, where R163 asks a modeller
to treat it as a refusal), and that the idle step completes rests on log entry 5 (DEDUCED). -/
def Obligations.EveryStepCompletes : Prop :=
  ∀ s : State, ∃ t : State, step s = .next t

/-- The invariant holds at reset (R16, R26). -/
def Obligations.InvariantAtReset : Prop := stateOk State.reset = true

/-- R12 to R18, R27, R37: every step from any state of the invariant keeps it: the tree stays well-formed (flag sets in
their masks, aligned leaf addresses, no empty intermediate node, every child's flags within its parent's), there is no
tree in phase CONSUMED, and every image handed over is canonical, contiguous and within the bound. -/
def Obligations.InvariantKeptByEveryStep : Prop :=
  ∀ s t : State, stateOk s = true → step s = .next t → stateOk t = true

/-! ## Encoding -/

/-- R66, R67, R73: decoding the encoding of an instruction gives it back, with every operand at every value. -/
def Obligations.DecodeInvertsEncode : Prop :=
  ∀ i : Instr, i.wf = true → decode (encode i) = i

/-- R67, R69: every command word decodes to the operation its `op` field selects. -/
def Obligations.EveryWordDecodesByItsOpField : Prop :=
  ∀ w : CmdWord, opOf (decode w) = w.extractLsb' 0 2 ∧ (decode w).wf = true

/-- R68: a command word acts by the fields, and the bits of fields, that its operation uses: words that agree on those
act alike in every state. -/
def Obligations.UnusedOperandBitsHaveNoEffect : Prop :=
  ∀ (w w' : CmdWord) (s : State), opField w' = opField w →
    (opField w = 0b00 → vaddrField w' = vaddrField w → exec (decode w') s = exec (decode w) s) ∧
    (opField w = 0b01 → (vaddrField w').extractLsb' 12 36 = (vaddrField w).extractLsb' 12 36 →
      (paddrField w').extractLsb' 12 52 = (paddrField w).extractLsb' 12 52 →
      flagsField w' &&& Config.intermediateFlagMask = flagsField w &&& Config.intermediateFlagMask →
      flagsField w' &&& Config.leafFlagMask = flagsField w &&& Config.leafFlagMask →
      exec (decode w') s = exec (decode w) s) ∧
    (opField w = 0b10 → (vaddrField w').extractLsb' 0 48 = (vaddrField w).extractLsb' 0 48 →
      (protField w').extractLsb' 1 2 = (protField w).extractLsb' 1 2 → exec (decode w') s = exec (decode w) s) ∧
    (opField w = 0b11 → exec (decode w') s = exec (decode w) s)

/-- R74: the spec's worked encodings, read and written. -/
def Obligations.WorkedEncodings : Prop :=
  (decode 0x2000000010302000000000000828200001 = .insert 0x41410000 0x81810000 0x1 ∧
    encode (.insert 0x41410000 0x81810000 0x1) = 0x2000000010302000000000000828200001) ∧
  (decode 0x82828000A = .translate 0x41414000 0b010 ∧ encode (.translate 0x41414000 0b010) = 0x82828000A) ∧
  (decode 0x3 = .commit ∧ encode .commit = 0x3)

/-! ## The history of the tree, step by step -/

/-- The empty tree of the reset state is what R16 items 2 to 5 say of a tree that no INSERT has built. -/
def Obligations.HistoryAtReset : Prop := builtBy [] State.reset.root

/-- R16 items 2 to 5 as an invariant that every step keeps: if the tree is what the INSERTs `xs` have built, then after any
step (an INSERT, another command, a COMMIT, reset or waiting) it is what the history after that step has built. -/
def Obligations.EveryStepKeepsTheHistory : Prop :=
  ∀ (xs : List InsertOp) (s t : State), builtBy xs s.root → step s = .next t → builtBy (historyAfter s xs) t.root
end

