-- ==== Sys2Proof/Laws/History.lean ====
section
/-! SUPPORT. One more INSERT at the end of a history. -/

namespace Sys2Proof.Machine

/-- The union over a history with one more INSERT: that INSERT's truncated flags, if it is picked, joined to the old union. -/
theorem unionOf_append_one (mask : Word) (via : InsertOp → Bool) (xs : List InsertOp) (x : InsertOp) :
    unionOf mask via (xs ++ [x]) =
      if via x then some ((unionOf mask via xs).getD 0 ||| (x.flags &&& mask)) else unionOf mask via xs := by
  cases hx : via x with
  | false => simp [unionOf, List.filter_append, hx]
  | true =>
    have h : (xs ++ [x]).filter via = xs.filter via ++ [x] := by simp [List.filter_append, hx]
    unfold unionOf
    rw [h]
    cases xs.filter via <;> simp

/-- The last address of a history with one more INSERT: that INSERT's, if it is picked. -/
theorem lastAddr_append_one (via : InsertOp → Bool) (xs : List InsertOp) (x : InsertOp) :
    lastAddr via (xs ++ [x]) = if via x then some (x.paddr &&& Config.paStoreMask) else lastAddr via xs := by
  cases hx : via x <;> simp [lastAddr, List.filter_append, hx]

end Sys2Proof.Machine
end

