-- ==== Sys2Proof/Laws/Memory.lean ====
section
/-! SUPPORT. Image memory: every operation keeps the canonical form, and a read after a write gives what was written. -/

namespace Sys2Proof.Machine

theorem Memory.wf_nil : Memory.wf [] := by simp [Memory.wf]

theorem Memory.wf_cons (c : Host.Cell) (m : Memory) :
    Memory.wf (c :: m) ↔ (∀ d ∈ m, c.1 < d.1) ∧ c.2 ≠ unlistedByte ∧ Memory.wf m := by
  simp only [Memory.wf, List.map_cons, List.pairwise_cons, List.mem_map, forall_exists_index, and_imp,
    forall_apply_eq_imp_iff₂, List.mem_cons, forall_eq_or_imp]
  tauto

/-- An address below every listed one reads as an unlisted byte. -/
theorem memRead_of_lt {m : Memory} {a : Nat} (h : ∀ d ∈ m, a < d.1) : memRead m a = unlistedByte := by
  induction m with
  | nil => rfl
  | cons c m ih =>
    have hc : a < c.1 := h c (by simp)
    simp only [memRead]
    rw [if_neg (Nat.ne_of_lt hc)]
    exact ih fun d hd => h d (by simp [hd])

/-- What is listed after a write was listed before or is the written byte, which is no unlisted byte. -/
theorem mem_memWrite {m : Memory} {a : Nat} {v : Byte} {c : Host.Cell} (h : c ∈ memWrite m a v) :
    (c = (a, v) ∧ v ≠ unlistedByte) ∨ c ∈ m := by
  induction m with
  | nil =>
    simp only [memWrite] at h
    split at h
    · simp at h
    · rename_i hv; exact .inl ⟨by simpa using h, hv⟩
  | cons d m ih =>
    simp only [memWrite] at h
    split at h
    · split at h
      · exact .inr h
      · rename_i hv
        rcases List.mem_cons.1 h with h | h
        · exact .inl ⟨h, hv⟩
        · exact .inr h
    · split at h
      · split at h
        · exact .inr (List.mem_cons_of_mem _ h)
        · rename_i hv
          rcases List.mem_cons.1 h with h | h
          · exact .inl ⟨h, hv⟩
          · exact .inr (List.mem_cons_of_mem _ h)
      · rcases List.mem_cons.1 h with h | h
        · exact .inr (by simp [h])
        · exact (ih h).imp_right (List.mem_cons_of_mem _)

/-- A write keeps the canonical form. -/
theorem memWrite_wf {m : Memory} (a : Nat) (v : Byte) (h : Memory.wf m) : Memory.wf (memWrite m a v) := by
  induction m with
  | nil =>
    simp only [memWrite]
    split
    · exact Memory.wf_nil
    · rename_i hv; exact (Memory.wf_cons _ _).2 ⟨by simp, hv, Memory.wf_nil⟩
  | cons c m ih =>
    have hc := (Memory.wf_cons c m).1 h
    simp only [memWrite]
    split
    · rename_i hlt
      split
      · exact h
      · rename_i hv
        refine (Memory.wf_cons _ _).2 ⟨?_, hv, h⟩
        intro d hd
        rcases List.mem_cons.1 hd with rfl | hd
        · exact hlt
        · exact Nat.lt_trans hlt (hc.1 d hd)
    · split
      · rename_i heq
        split
        · exact hc.2.2
        · rename_i hv
          refine (Memory.wf_cons _ _).2 ⟨?_, hv, hc.2.2⟩
          intro d hd
          have := hc.1 d hd
          show a < d.1
          omega
      · rename_i h1 h2
        refine (Memory.wf_cons _ _).2 ⟨?_, hc.2.1, ih hc.2.2⟩
        intro d hd
        rcases mem_memWrite hd with ⟨rfl, -⟩ | hd
        · show c.1 < a
          omega
        · exact hc.1 d hd

/-- A read after a write: the written byte at its address, what was there before at every other. -/
theorem memRead_memWrite {m : Memory} (h : Memory.wf m) (a b : Nat) (v : Byte) :
    memRead (memWrite m a v) b = if b = a then v else memRead m b := by
  induction m with
  | nil =>
    simp only [memWrite]
    split
    · rename_i hv; simp [memRead, hv]
    · simp [memRead]
  | cons c m ih =>
    have hc := (Memory.wf_cons c m).1 h
    simp only [memWrite]
    split
    · rename_i hlt
      split
      · rename_i hv
        split
        · rename_i hb
          subst hb
          rw [hv]
          refine memRead_of_lt fun d hd => ?_
          rcases List.mem_cons.1 hd with rfl | hd
          · exact hlt
          · exact Nat.lt_trans hlt (hc.1 d hd)
        · rfl
      · rfl
    · split
      · rename_i heq
        split
        · rename_i hv
          by_cases hb : b = a
          · subst hb
            rw [if_pos rfl, hv]
            exact memRead_of_lt fun d hd => by have := hc.1 d hd; omega
          · rw [if_neg hb]
            have : b ≠ c.1 := by omega
            simp [memRead, this]
        · subst heq
          by_cases hb : b = c.1 <;> simp [memRead, hb]
      · rename_i h1 h2
        simp only [memRead]
        by_cases hb : b = c.1
        · simp [hb]
          omega
        · rw [if_neg hb, if_neg hb]
          exact ih hc.2.2

theorem memWriteBytes_wf {m : Memory} (a : Nat) (w : Word) (n : Nat) (h : Memory.wf m) :
    Memory.wf (memWriteBytes m a w n) := by
  induction n with
  | zero => exact h
  | succ k ih => exact memWrite_wf _ _ ih

/-- A 64-bit store keeps the canonical form. -/
theorem memWrite64_wf {m : Memory} (pa w : Word) (h : Memory.wf m) : Memory.wf (memWrite64 m pa w) :=
  memWriteBytes_wf _ _ _ h

theorem memRead_memWriteBytes {m : Memory} (h : Memory.wf m) (a : Nat) (w : Word) (n b : Nat) :
    memRead (memWriteBytes m a w n) b = if a ≤ b ∧ b < a + n then byteOf w (b - a) else memRead m b := by
  induction n with
  | zero => rw [if_neg (by omega)]; rfl
  | succ k ih =>
    rw [memWriteBytes, memRead_memWrite (memWriteBytes_wf a w k h), ih]
    by_cases hb : b = a + k
    · subst hb
      rw [if_pos rfl, if_pos (by omega), Nat.add_sub_cancel_left]
    · rw [if_neg hb]
      by_cases h1 : a ≤ b ∧ b < a + k
      · rw [if_pos h1, if_pos (by omega)]
      · rw [if_neg h1, if_neg (by omega)]

/-- What is listed after a 64-bit store was listed before or is one of its eight bytes. -/
theorem mem_memWriteBytes {m : Memory} {a : Nat} {w : Word} {n : Nat} {c : Host.Cell}
    (h : c ∈ memWriteBytes m a w n) : (a ≤ c.1 ∧ c.1 < a + n) ∨ c ∈ m := by
  induction n with
  | zero => exact .inr h
  | succ k ih =>
    rcases mem_memWrite h with ⟨rfl, -⟩ | h
    · exact .inl (by simp)
    · exact (ih h).imp_left fun h => by omega

/-- An image memory operation of the engine keeps the image's bytes canonical. -/
theorem imageWrite64_wf {im : Image} (pa w : Word) (h : Memory.wf im.bytes) : Memory.wf (imageWrite64 im pa w).bytes :=
  memWrite64_wf pa w h

theorem emptyImage_wf : Memory.wf emptyImage.bytes := Memory.wf_nil

theorem addPage_wf {im : Image} (pa : Word) (h : Memory.wf im.bytes) : Memory.wf (addPage im pa).bytes := h

/-- The memory of the reset state: it holds no image, so every image it holds is canonical. -/
theorem reset_memory_wf : ∀ r ∈ State.reset.responses, ∀ rootPa im, r = .commitOk rootPa im → Memory.wf im.bytes := by
  simp [State.reset]

end Sys2Proof.Machine
end

