-- ==== Sys2Proof/Laws/State.lean ====
section
/-! SUPPORT. One lemma per field per update of the state, and of the variables of a running COMMIT. -/

namespace Sys2Proof.Machine

/-! ### `respond` -/

@[simp] theorem respond_phase (s : State) (r : Response) : (respond s r).phase = s.phase := rfl
@[simp] theorem respond_root (s : State) (r : Response) : (respond s r).root = s.root := rfl
@[simp] theorem respond_alloc (s : State) (r : Response) : (respond s r).alloc = s.alloc := rfl
@[simp] theorem respond_inputs (s : State) (r : Response) : (respond s r).inputs = s.inputs := rfl
@[simp] theorem respond_responses (s : State) (r : Response) : (respond s r).responses = r :: s.responses := rfl
@[simp] theorem respond_requests (s : State) (r : Response) : (respond s r).requests = s.requests := rfl

/-! ### `setRoot` -/

@[simp] theorem setRoot_phase (s : State) (r : Root) : (setRoot s r).phase = s.phase := rfl
@[simp] theorem setRoot_root (s : State) (r : Root) : (setRoot s r).root = r := rfl
@[simp] theorem setRoot_alloc (s : State) (r : Root) : (setRoot s r).alloc = s.alloc := rfl
@[simp] theorem setRoot_inputs (s : State) (r : Root) : (setRoot s r).inputs = s.inputs := rfl
@[simp] theorem setRoot_responses (s : State) (r : Root) : (setRoot s r).responses = s.responses := rfl
@[simp] theorem setRoot_requests (s : State) (r : Root) : (setRoot s r).requests = s.requests := rfl

/-! ### `consumeTree` -/

@[simp] theorem consumeTree_phase (s : State) : (consumeTree s).phase = .consumed := rfl
@[simp] theorem consumeTree_root (s : State) : (consumeTree s).root = Root.empty := rfl
@[simp] theorem consumeTree_alloc (s : State) : (consumeTree s).alloc = s.alloc := rfl
@[simp] theorem consumeTree_inputs (s : State) : (consumeTree s).inputs = s.inputs := rfl
@[simp] theorem consumeTree_responses (s : State) : (consumeTree s).responses = s.responses := rfl
@[simp] theorem consumeTree_requests (s : State) : (consumeTree s).requests = s.requests := rfl

/-! ### `countRequests` -/

@[simp] theorem countRequests_phase (s : State) (n : Nat) : (countRequests s n).phase = s.phase := rfl
@[simp] theorem countRequests_root (s : State) (n : Nat) : (countRequests s n).root = s.root := rfl
@[simp] theorem countRequests_alloc (s : State) (n : Nat) : (countRequests s n).alloc = s.alloc := rfl
@[simp] theorem countRequests_inputs (s : State) (n : Nat) : (countRequests s n).inputs = s.inputs := rfl
@[simp] theorem countRequests_responses (s : State) (n : Nat) : (countRequests s n).responses = s.responses := rfl
@[simp] theorem countRequests_requests (s : State) (n : Nat) : (countRequests s n).requests = s.requests + n := rfl

/-! ### `accept` -/

@[simp] theorem accept_phase (s : State) (a : Alloc) (rest : List Input) : (accept s a rest).phase = s.phase := rfl
@[simp] theorem accept_root (s : State) (a : Alloc) (rest : List Input) : (accept s a rest).root = s.root := rfl
@[simp] theorem accept_alloc (s : State) (a : Alloc) (rest : List Input) : (accept s a rest).alloc = a := rfl
@[simp] theorem accept_inputs (s : State) (a : Alloc) (rest : List Input) : (accept s a rest).inputs = rest := rfl
@[simp] theorem accept_responses (s : State) (a : Alloc) (rest : List Input) :
    (accept s a rest).responses = s.responses := rfl
@[simp] theorem accept_requests (s : State) (a : Alloc) (rest : List Input) :
    (accept s a rest).requests = s.requests := rfl

/-! ### `hostReset` -/

@[simp] theorem hostReset_phase (s : State) (rest : List Input) : (hostReset s rest).phase = .buildable := rfl
@[simp] theorem hostReset_root (s : State) (rest : List Input) : (hostReset s rest).root = Root.empty := rfl
@[simp] theorem hostReset_alloc (s : State) (rest : List Input) : (hostReset s rest).alloc = s.alloc := rfl
@[simp] theorem hostReset_inputs (s : State) (rest : List Input) : (hostReset s rest).inputs = rest := rfl
@[simp] theorem hostReset_responses (s : State) (rest : List Input) :
    (hostReset s rest).responses = s.responses := rfl
@[simp] theorem hostReset_requests (s : State) (rest : List Input) :
    (hostReset s rest).requests = s.requests := rfl

/-! ### `waitForHost`, reset -/

@[simp] theorem waitForHost_eq (s : State) : waitForHost s = s := rfl
@[simp] theorem reset_phase : State.reset.phase = .buildable := rfl
@[simp] theorem reset_root : State.reset.root = Root.empty := rfl
@[simp] theorem reset_responses : State.reset.responses = [] := rfl

/-! ### The variables of a COMMIT -/

@[simp] theorem storeEntry_next (c : CommitRun) (pa w : Word) : (storeEntry c pa w).next = c.next := rfl
@[simp] theorem storeEntry_nreq (c : CommitRun) (pa w : Word) : (storeEntry c pa w).nreq = c.nreq := rfl
@[simp] theorem storeEntry_pages (c : CommitRun) (pa w : Word) :
    (storeEntry c pa w).image.pages = c.image.pages := rfl
@[simp] theorem storeEntry_bytes (c : CommitRun) (pa w : Word) :
    (storeEntry c pa w).image.bytes = memWrite64 c.image.bytes pa w := rfl
@[simp] theorem addPage_pages (im : Image) (pa : Word) : (addPage im pa).pages = im.pages ++ [pa] := rfl
@[simp] theorem addPage_bytes (im : Image) (pa : Word) : (addPage im pa).bytes = im.bytes := rfl

end Sys2Proof.Machine
end

