-- ==== Sys2Proof/Laws/Ops.lean ====
section
/-! SUPPORT. One lemma per shared operation that says once everything it can do. -/

namespace Sys2Proof.Machine

/-! ## The phase check, the port -/

theorem treeCommand_consumed {s : State} (h : s.phase = .consumed) (op : State → Host.Outcome State Fault Refusal) :
    treeCommand s op = .next (respond s .consumed) := by simp [treeCommand, h]

theorem treeCommand_buildable {s : State} (h : s.phase = .buildable) (op : State → Host.Outcome State Fault Refusal) :
    treeCommand s op = op s := by simp [treeCommand, h]

/-- A tree operation either meets the CONSUMED phase and only says so, or runs in the BUILDABLE phase. -/
theorem treeCommand_cases {s t : State} {op : State → Host.Outcome State Fault Refusal}
    (h : treeCommand s op = .next t) :
    (s.phase = .consumed ∧ t = respond s .consumed) ∨ (s.phase = .buildable ∧ op s = .next t) := by
  cases hp : s.phase with
  | consumed =>
    rw [treeCommand_consumed hp] at h
    cases h
    exact .inl ⟨rfl, rfl⟩
  | buildable => exact .inr ⟨rfl, by rwa [treeCommand_buildable hp] at h⟩

/-- What an answer of `step` can be. -/
theorem step_cases {s t : State} (h : step s = .next t) :
    (s.inputs = [] ∧ t = s) ∨
    (∃ rest, s.inputs = .reset :: rest ∧ t = hostReset s rest) ∨
    (∃ w a rest, s.inputs = .command w a :: rest ∧ exec (decode w) (accept s a rest) = .next t) := by
  unfold step arrival at h
  cases hi : s.inputs with
  | nil => simp only [hi] at h; cases h; exact .inl ⟨rfl, rfl⟩
  | cons m rest =>
    cases m with
    | reset => simp only [hi] at h; cases h; exact .inr (.inl ⟨rest, rfl, rfl⟩)
    | command w a => simp only [hi] at h; exact .inr (.inr ⟨w, a, rest, rfl, h⟩)

/-- What an answer of INSERT can be. -/
theorem execInsert_cases {va pa fl : Word} {s t : State} (h : execInsert va pa fl s = .next t) :
    (s.phase = .consumed ∧ t = respond s .consumed) ∨
    (s.phase = .buildable ∧ t = respond (setRoot s (insertTree s.root va pa fl)) .insertOk) := by
  rcases treeCommand_cases h with h | ⟨hp, h⟩
  · exact .inl h
  · cases h; exact .inr ⟨hp, rfl⟩

/-- What an answer of TRANSLATE can be. -/
theorem execTranslate_cases {va : Word} {prot : Prot} {s t : State} (h : execTranslate va prot s = .next t) :
    (s.phase = .consumed ∧ t = respond s .consumed) ∨
    (s.phase = .buildable ∧ t = respond s (translateResponse s.root va prot)) := by
  rcases treeCommand_cases h with h | ⟨hp, h⟩
  · exact .inl h
  · cases h; exact .inr ⟨hp, rfl⟩

/-- What an answer of COMMIT can be. -/
theorem execCommit_cases {s t : State} (h : execCommit s = .next t) :
    (s.phase = .consumed ∧ t = respond s .consumed) ∨
    (s.phase = .buildable ∧ ∃ k, commitTree s.alloc s.root = .error k ∧
      t = respond (countRequests (consumeTree s) k) .allocFail) ∨
    (s.phase = .buildable ∧ ∃ rootPa c, commitTree s.alloc s.root = .ok (rootPa, c) ∧
      t = respond (countRequests (consumeTree s) c.nreq) (.commitOk rootPa c.image)) := by
  rcases treeCommand_cases h with h | ⟨hp, h⟩
  · exact .inl h
  · cases hc : commitTree s.alloc s.root with
    | error k => simp only [hc] at h; cases h; exact .inr (.inl ⟨hp, k, rfl, rfl⟩)
    | ok rc =>
      obtain ⟨rootPa, c⟩ := rc
      simp only [hc] at h
      cases h
      exact .inr (.inr ⟨hp, rootPa, c, rfl, rfl⟩)

/-! ## Levels of a walk -/

/-- Entering a slot gives its child exactly when there is one and its flags allow the request. -/
theorem enter_eq_some {α : Type} {flagsOf : α → Flags} {prot : Prot} {xs : Slots α} {i : Index} {c : α} :
    enter flagsOf prot xs i = some c ↔ slotGet xs i = some c ∧ allow (flagsOf c) prot = true := by
  unfold enter
  cases slotGet xs i with
  | none => simp
  | some d => by_cases h : allow (flagsOf d) prot = true <;> simp [h] <;> aesop

/-- The per-level check as one condition (R112). -/
theorem allow_iff (f : Flags) (prot : Prot) :
    allow f prot = true ↔
      f.getLsbD 0 = true ∧ (prot.getLsbD 1 = true → f.getLsbD 1 = true) ∧
        (prot.getLsbD 2 = true → f.getLsbD 63 = false) := by
  unfold allow has wants flagBit accessBit
  cases f.getLsbD 0 <;> cases f.getLsbD 1 <;> cases f.getLsbD 63 <;> cases prot.getLsbD 1 <;>
    cases prot.getLsbD 2 <;> simp

/-- The walk ends at a leaf exactly when each level's slot is occupied and allows the request, outer to inner. -/
theorem walk_eq_some {r : Root} {va : Word} {prot : Prot} {l : Leaf} :
    walk r va prot = some l ↔ ∃ pdpt pd pt,
      (slotGet r.slots (idx4 va) = some pdpt ∧ allow pdpt.flags prot = true) ∧
      (slotGet pdpt.slots (idx3 va) = some pd ∧ allow pd.flags prot = true) ∧
      (slotGet pd.slots (idx2 va) = some pt ∧ allow pt.flags prot = true) ∧
      (slotGet pt.slots (idx1 va) = some l ∧ allow l.flags prot = true) := by
  simp only [← enter_eq_some]
  unfold walk
  cases h4 : enter Node.flags prot r.slots (idx4 va) with
  | none => simp
  | some pdpt =>
    cases h3 : enter Node.flags prot pdpt.slots (idx3 va) with
    | none => simp [h3]
    | some pd =>
      cases h2 : enter Node.flags prot pd.slots (idx2 va) with
      | none => simp [h3, h2]
      | some pt => simp [h3, h2]

/-- A TRANSLATE in phase BUILDABLE answers OK with an address exactly when the walk ends at a leaf with that sum. -/
theorem translateResponse_eq_ok {r : Root} {va pa : Word} {prot : Prot} :
    translateResponse r va prot = .translateOk pa ↔ ∃ l, walk r va prot = some l ∧ resultAddr l.addr va = pa := by
  unfold translateResponse
  cases walk r va prot <;> simp

/-- What a holder of the image reads after a 64-bit store. -/
theorem memRead_memWrite64 {m : Memory} (h : Memory.wf m) (pa w : Word) (a : Nat) :
    memRead (memWrite64 m pa w) a =
      if pa.toNat ≤ a ∧ a < pa.toNat + 8 then byteOf w (a - pa.toNat) else memRead m a :=
  memRead_memWriteBytes h _ _ _ _

/-! ## Pages of a COMMIT -/

/-- What a page request can answer. -/
theorem newPage_cases (a : Alloc) (c : CommitRun) :
    (allocOk a c.nreq = true ∧ newPage a c = .ok (c.next,
      { next := c.next + Config.pageSize, nreq := c.nreq + 1, image := addPage c.image c.next })) ∨
    (allocOk a c.nreq = false ∧ newPage a c = .error (c.nreq + 1)) := by
  unfold newPage
  cases h : allocOk a c.nreq <;> simp

@[simp] theorem commitLeaves_next (tpa : Word) (xs : Slots Leaf) (c : CommitRun) :
    (commitLeaves tpa xs c).next = c.next := by
  induction xs generalizing c with
  | nil => rfl
  | cons e xs ih => simp [commitLeaves, ih]

@[simp] theorem commitLeaves_nreq (tpa : Word) (xs : Slots Leaf) (c : CommitRun) :
    (commitLeaves tpa xs c).nreq = c.nreq := by
  induction xs generalizing c with
  | nil => rfl
  | cons e xs ih => simp [commitLeaves, ih]

@[simp] theorem commitLeaves_pages (tpa : Word) (xs : Slots Leaf) (c : CommitRun) :
    (commitLeaves tpa xs c).image.pages = c.image.pages := by
  induction xs generalizing c with
  | nil => rfl
  | cons e xs ih => simp [commitLeaves, ih]

theorem commitLeaves_wf (tpa : Word) (xs : Slots Leaf) (c : CommitRun) (h : Memory.wf c.image.bytes) :
    Memory.wf (commitLeaves tpa xs c).image.bytes := by
  induction xs generalizing c with
  | nil => exact h
  | cons e xs ih => exact ih _ (memWrite64_wf _ _ h)

/-- What the children of a node with one more child do: the child's subtree, its entry word, the rest. -/
theorem commitChildren_cons_ok {α : Type} {child : Node α → CommitRun → Except Nat (Word × CommitRun)} {ppa : Word}
    {i : Index} {n : Node α} {rest : Slots (Node α)} {c d : CommitRun}
    (h : commitChildren child ppa ((i, n) :: rest) c = .ok d) :
    ∃ cpa e, child n c = .ok (cpa, e) ∧
      commitChildren child ppa rest (storeEntry e (entryAddr ppa i) (entryWord cpa n.flags)) = .ok d := by
  rw [commitChildren] at h
  cases hc : child n c with
  | error k => simp [hc] at h
  | ok ce => exact ⟨ce.1, ce.2, rfl, by simpa [hc] using h⟩

/-- What a page-bearing node that succeeds does: its own page, at the counter's value, then its children. -/
theorem commitPage_ok {α : Type} {a : Alloc} {child : Node α → CommitRun → Except Nat (Word × CommitRun)}
    {slots : Slots (Node α)} {c d : CommitRun} {pa : Word} (h : commitPage a child slots c = .ok (pa, d)) :
    allocOk a c.nreq = true ∧ pa = c.next ∧ commitChildren child c.next slots
      { next := c.next + Config.pageSize, nreq := c.nreq + 1, image := addPage c.image c.next } = .ok d := by
  rcases newPage_cases a c with ⟨ha, hn⟩ | ⟨ha, hn⟩
  · simp only [commitPage, hn] at h
    split at h
    · cases h
    · rename_i e he
      cases h
      exact ⟨ha, rfl, he⟩
  · simp [commitPage, hn] at h

/-- What a PT node that succeeds does: its page, at the counter's value, then its leaf words. -/
theorem commitPt_ok {a : Alloc} {n : PtNode} {c d : CommitRun} {pa : Word} (h : commitPt a n c = .ok (pa, d)) :
    allocOk a c.nreq = true ∧ pa = c.next ∧ d = commitLeaves c.next n.slots
      { next := c.next + Config.pageSize, nreq := c.nreq + 1, image := addPage c.image c.next } := by
  rcases newPage_cases a c with ⟨ha, hn⟩ | ⟨ha, hn⟩
  · simp only [commitPt, hn] at h
    cases h
    exact ⟨ha, rfl, rfl⟩
  · simp [commitPt, hn] at h

end Sys2Proof.Machine
end

