-- ==== Sys2Proof/Laws/PerInstr.lean ====
section
/-! SUPPORT. Laws of every instruction, one lemma per constructor. -/

namespace Sys2Proof.Laws

/-- The `op` field of an instruction's command word selects its row of the opcode table (R67). -/
def OpSelect.Statement (i : Instr) : Prop := opField (encode i) = opOf i

theorem opField_packCmd (op : BitVec 2) (prot : Prot) (va pa fl : Word) : opField (packCmd op prot va pa fl) = op := by
  unfold opField packCmd
  ext k hk
  simp only [BitVec.getElem_extractLsb', Nat.zero_add, BitVec.getLsbD_append]
  rw [if_pos hk, BitVec.getLsbD_eq_getElem hk]

theorem OpSelect.index (vaddr : Word) : OpSelect.Statement (.index vaddr) := opField_packCmd _ _ _ _ _

theorem OpSelect.insert (vaddr paddr flags : Word) : OpSelect.Statement (.insert vaddr paddr flags) :=
  opField_packCmd _ _ _ _ _

theorem OpSelect.translate (vaddr : Word) (prot : Prot) : OpSelect.Statement (.translate vaddr prot) :=
  opField_packCmd _ _ _ _ _

theorem OpSelect.commit : OpSelect.Statement .commit := opField_packCmd _ _ _ _ _

end Sys2Proof.Laws
end

