-- ==== Sys2Proof/Laws/Slots.lean ====
section
/-! SUPPORT. What reading and setting a slot do. -/

namespace Sys2Proof.Machine

variable {α : Type}

@[simp] theorem slotGet_nil (i : Index) : slotGet ([] : Slots α) i = none := rfl

@[simp] theorem slotGet_slotSet_same (xs : Slots α) (i : Index) (c : α) : slotGet (slotSet xs i c) i = some c := by
  induction xs with
  | nil => simp [slotSet, slotGet]
  | cons e xs ih =>
    obtain ⟨j, d⟩ := e
    simp only [slotSet]
    split
    · simp [slotGet]
    · split
      · simp [slotGet]
      · rename_i h; simp [slotGet, h, ih]

theorem slotGet_slotSet_of_ne (xs : Slots α) {i j : Index} (c : α) (h : j ≠ i) :
    slotGet (slotSet xs i c) j = slotGet xs j := by
  induction xs with
  | nil => simp [slotSet, slotGet, h]
  | cons e xs ih =>
    obtain ⟨k, d⟩ := e
    simp only [slotSet]
    split
    · simp [slotGet, h]
    · split
      · rename_i hk; subst hk; simp [slotGet, h]
      · simp [slotGet, ih]

/-- Setting a slot twice is setting it once, to the second value. -/
@[simp] theorem slotSet_slotSet (xs : Slots α) (i : Index) (c d : α) :
    slotSet (slotSet xs i c) i d = slotSet xs i d := by
  induction xs with
  | nil => simp [slotSet]
  | cons e xs ih =>
    obtain ⟨k, b⟩ := e
    simp only [slotSet]
    split
    · simp [slotSet]
    · split
      · simp [slotSet]
      · rename_i h1 h2; simp [slotSet, h1, h2, ih]

@[simp] theorem slotGet_slotUpdate_same (xs : Slots α) (i : Index) (f : Option α → α) :
    slotGet (slotUpdate xs i f) i = some (f (slotGet xs i)) := by simp [slotUpdate]

theorem slotGet_slotUpdate_of_ne (xs : Slots α) {i j : Index} (f : Option α → α) (h : j ≠ i) :
    slotGet (slotUpdate xs i f) j = slotGet xs j := slotGet_slotSet_of_ne xs _ h

/-- The one lemma of `slotUpdate`: what every slot holds afterwards. -/
theorem slotGet_slotUpdate (xs : Slots α) (i j : Index) (f : Option α → α) :
    slotGet (slotUpdate xs i f) j = if j = i then some (f (slotGet xs i)) else slotGet xs j := by
  split
  · rename_i h; subst h; simp
  · rename_i h; exact slotGet_slotUpdate_of_ne xs f h

theorem slotUpdate_slotUpdate (xs : Slots α) (i : Index) (f g : Option α → α) :
    slotUpdate (slotUpdate xs i f) i g = slotUpdate xs i fun o => g (some (f o)) := by
  simp [slotUpdate]

/-- A slot that is read as occupied is in the list. -/
theorem mem_of_slotGet {xs : Slots α} {i : Index} {c : α} (h : slotGet xs i = some c) : (i, c) ∈ xs := by
  induction xs with
  | nil => simp at h
  | cons e xs ih =>
    obtain ⟨j, d⟩ := e
    simp only [slotGet] at h
    split at h
    · rename_i hj; cases h; simp [hj]
    · exact List.mem_cons_of_mem _ (ih h)

/-- What is in the list after setting a slot was there before or is the new child. -/
theorem mem_slotSet {xs : Slots α} {i : Index} {c : α} {e : Index × α} (h : e ∈ slotSet xs i c) :
    e = (i, c) ∨ e ∈ xs := by
  induction xs with
  | nil => simpa [slotSet] using h
  | cons b xs ih =>
    obtain ⟨j, d⟩ := b
    simp only [slotSet] at h
    split at h
    · simpa using h
    · split at h
      · simp only [List.mem_cons] at h ⊢; tauto
      · simp only [List.mem_cons] at h ⊢
        rcases h with h | h
        · exact .inr (.inl h)
        · exact (ih h).imp_right .inr

theorem slotSet_ne_nil (xs : Slots α) (i : Index) (c : α) : slotSet xs i c ≠ [] := by
  intro h
  have := slotGet_slotSet_same xs i c
  rw [h] at this
  simp at this

theorem risingSlots_cons (i : Index) (c : α) (xs : Slots α) :
    risingSlots ((i, c) :: xs) = true ↔ (∀ e ∈ xs, i.toNat < e.1.toNat) ∧ risingSlots xs = true := by
  simp only [risingSlots, List.map_cons, List.pairwise_cons, decide_eq_true_eq, List.mem_map, forall_exists_index,
    and_imp, forall_apply_eq_imp_iff₂]

/-- In a rising list every listed child is what its slot reads as. -/
theorem slotGet_of_mem {xs : Slots α} (hr : risingSlots xs = true) {i : Index} {c : α} (h : (i, c) ∈ xs) :
    slotGet xs i = some c := by
  induction xs with
  | nil => simp at h
  | cons e xs ih =>
    obtain ⟨j, d⟩ := e
    rw [risingSlots_cons] at hr
    rcases List.mem_cons.1 h with h | h
    · cases h; simp [slotGet]
    · have hlt := hr.1 _ h
      have hne : i ≠ j := by rintro rfl; exact absurd hlt (Nat.lt_irrefl _)
      simp [slotGet, hne, ih hr.2 h]

/-- Setting a slot keeps the rising order. -/
theorem risingSlots_slotSet {xs : Slots α} (i : Index) (c : α) (hr : risingSlots xs = true) :
    risingSlots (slotSet xs i c) = true := by
  induction xs with
  | nil => simp [slotSet, risingSlots]
  | cons e xs ih =>
    obtain ⟨j, d⟩ := e
    have hc := (risingSlots_cons j d xs).1 hr
    simp only [slotSet]
    split
    · rename_i hij
      have hij' : i.toNat < j.toNat := hij
      refine (risingSlots_cons _ _ _).2 ⟨?_, hr⟩
      intro e he
      rcases List.mem_cons.1 he with rfl | he
      · exact hij'
      · exact Nat.lt_trans hij' (hc.1 e he)
    · split
      · rename_i h; subst h
        exact (risingSlots_cons _ _ _).2 hc
      · rename_i h1 h2
        refine (risingSlots_cons _ _ _).2 ⟨?_, ih hc.2⟩
        intro e he
        rcases mem_slotSet he with rfl | he
        · have h1' : ¬ i.toNat < j.toNat := h1
          have h2' : i.toNat ≠ j.toNat := fun h => h2 (BitVec.eq_of_toNat_eq h)
          show j.toNat < i.toNat
          omega
        · exact hc.1 e he

/-- A node has at most 512 occupied slots (R5 `SLOTS`). -/
theorem length_le_of_risingSlots {xs : Slots α} (hr : risingSlots xs = true) : xs.length ≤ 512 := by
  have hp : (xs.map fun e => e.1.toNat).Pairwise (· < ·) := by simpa [risingSlots] using hr
  have hn : (xs.map fun e => e.1.toNat).Nodup := hp.imp (fun h => Nat.ne_of_lt h)
  have hs : (xs.map fun e => e.1.toNat) ⊆ List.range 512 := by
    intro n hn
    obtain ⟨e, -, rfl⟩ := List.mem_map.1 hn
    exact List.mem_range.2 e.1.isLt
  simpa using (List.subperm_of_subset hn hs).length_le

end Sys2Proof.Machine
end

