-- ==== Sys2Proof/Tests/Slice0.lean ====
section
/-! SUPPORT. Tests: words and vectors of spec/95_test_vectors.md, the well-formedness smoke test, and for every statement with
hypotheses a state and operands that meet them. -/

namespace Sys2Proof.Tests

open Sys2Proof.Machine

/-! ## Well-formedness: the check refuses a number that is no command word -/

theorem test_wellFormed_refuses_bit_197 : isCommandWord (2 ^ 197) = false := by decide

theorem test_wellFormed_accepts_all_ones : isCommandWord (2 ^ 197 - 1) = true := by decide

theorem test_decode_refuses_bit_197_by_name : decodeNumber (2 ^ 197) = .error .tooWide := rfl

/-! ## Decoding: words of R74 and of vectors T65 to T69b, laid out by R66 -/

/-- T65. -/
theorem test_decode_index : decodeTableWord 200 0x828200000 = some (.index 0x41410000) := by decide

/-- T67: NX is `cmd[196]`, Present is `cmd[133]`. -/
theorem test_decode_insert : decodeTableWord 200 0x10000000000000002000000000040000000000000828220001 =
    some (.insert 0x41411000 0x200000 0x8000000000000001) := by decide

/-- T69b: `prot` is ignored. -/
theorem test_decode_insert_all_ones : decode (BitVec.ofNat 197 (2 ^ 197 - 1 - 2)) =
    .insert 0xFFFFFFFFFFFFFFFF 0xFFFFFFFFFFFFFFFF 0xFFFFFFFFFFFFFFFF := by decide

/-- T68. -/
theorem test_decode_translate : decodeTableWord 200 0x82828000A = some (.translate 0x41414000 0b010) := by decide

/-- T69a: every operand field is ignored. -/
theorem test_decode_commit_all_ones : decode (BitVec.ofNat 197 (2 ^ 197 - 1)) = .commit := by decide

/-! ## States to test on -/

/-- The tree that INSERTs build on the empty one. -/
def treeOf : List InsertOp → Root
  | [] => Root.empty
  | x :: xs => insertTree (treeOf xs) x.vaddr x.paddr x.flags

/-- The reset state with the tree that INSERTs build, the last of the list first. -/
def stateOf (xs : List InsertOp) : State := { State.reset with root := treeOf xs }

/-- Source scenario S1: one page at 0x41410000. -/
def one : State := stateOf [⟨0x41410000, 0x81810000, 0x1⟩]

/-- Program P2: two siblings, the second with NX. -/
def siblings : State := stateOf [⟨0x41411000, 0x00200000, 0x8000000000000001⟩, ⟨0x41410000, 0x81810000, 0x3⟩]

/-- The tree of program P3, one leaf fewer. -/
def wide : State := stateOf [⟨0x41410000, 0x81810000, 0x1⟩, ⟨0xFFFF800000000000, 0xABC000, 0x3⟩]

/-- After a COMMIT. -/
def spent : State := { State.reset with phase := .consumed }

/-- An allocator that fails request `k` and no other. -/
def failAt (k : Nat) : Alloc := { answers := List.replicate k true ++ [false], rest := true }

/-- The latest response of an outcome. -/
def answer : Host.Outcome State Fault Refusal → Option Response
  | .next t => t.responses.head?
  | _ => none

/-- The words of the latest response's image at some addresses. -/
def imageWords (o : Host.Outcome State Fault Refusal) (as : List Word) : List (Option Word) :=
  match answer o with
  | some (.commitOk _ im) => as.map (imageWord im)
  | _ => []

/-! ## Two vectors for each operation -/

/-- T14. -/
theorem test_index_fields : answer (exec (.index 0x123456789ABCDEF0) State.reset) =
    some (.indexOk 172 482 213 461 0xEF0) := by decide

/-- T11 and T63: bits 63:48 ignored, status OK also in phase CONSUMED. -/
theorem test_index_when_consumed : answer (exec (.index 0xFFFF800000000000) spent) = some (.indexOk 256 0 0 0 0) := by
  decide

/-- T21: the low bits of `paddr` go, and all flags are truncated per level. -/
theorem test_insert_truncates :
    leafAt (stateOf [⟨0x41410000, 0x12345FFF, 0xFFFFFFFFFFFFFFFF⟩]).root 0 1 10 16 =
      some ⟨0x12345000, 0x80000000000001FF⟩ ∧
    ptFlags (stateOf [⟨0x41410000, 0x12345FFF, 0xFFFFFFFFFFFFFFFF⟩]).root 0 1 10 = some 0x80000000000000BF := by decide

/-- T25: the last address wins, the flags widen. -/
theorem test_insert_overwrites :
    leafAt (stateOf [⟨0x41410000, 0x90000000, 0x1⟩, ⟨0x41410000, 0x81810000, 0x3⟩]).root 0 1 10 16 =
      some ⟨0x90000000, 0x3⟩ := by decide

/-- T49: the top corner of the address space. -/
theorem test_translate_top_corner :
    answer (exec (.translate 0xFFFFFFFFFFFFFFFF 0b001) (stateOf [⟨0xFFFFFFFFFFFFFFFF, 0xFFFFFFFFFFFFFFFF, 0x1⟩])) =
      some (.translateOk 0xFFFFFFFFFFFFFFFF) := by decide

/-- P2 step 4: an ancestor's NX denies a sibling whose own leaf lacks it. -/
theorem test_translate_nx_of_sibling : answer (exec (.translate 0x41410000 0b100) siblings) = some .translateMiss := by
  decide

/-- P3: pre-order numbering; root word 256 tells it from the two rejected readings. -/
theorem test_commit_preorder : imageWords (exec .commit wide) [0x0, 0x800, 0x1008, 0x2050, 0x3080, 0x4000, 0x5000, 0x6000] =
    [some 0x1001, some 0x4003, some 0x2001, some 0x3001, some 0x81810001, some 0x5003, some 0x6003, some 0xABC003] := by
  decide +kernel

/-- T56: request 2 fails; three requests were made and nothing is handed over. -/
theorem test_commit_alloc_fail : exec .commit { one with alloc := failAt 2 } = .next { one with
    phase := .consumed, root := Root.empty, alloc := failAt 2, responses := [.allocFail], requests := 3 } := rfl

/-- T70: the bytes of a stored word, least significant first. -/
theorem test_store_bytes : (List.range 8).map (fun k => memRead (memWrite64 [] 0x3080 0x81810001) (0x3080 + k)) =
    [0x01, 0x00, 0x81, 0x81, 0x00, 0x00, 0x00, 0x00] := by decide

/-- T50: a step from reset runs the command placed at the port, here a COMMIT of the empty tree. -/
theorem test_step_runs_placed_command :
    answer (step (State.reset.withFetchWord 200 0x3)) = some (.commitOk 0 ⟨[0], []⟩) := by decide

/-! ## Hypotheses of the statements, met -/

theorem witness_InsertWritesItsPathAndNothingElse : one.phase = .buildable := rfl

theorem witness_RepeatedInsertChangesNothing :
    one.phase = .buildable ∧ ∃ t, exec (.insert 0x41410000 0x90000000 0x3) one = .next t := ⟨rfl, _, rfl⟩

theorem witness_SiblingsShareAncestorsNotLeaves :
    State.reset.phase = .buildable ∧ idx4 0x41410000 = idx4 0x41411000 ∧ idx3 0x41410000 = idx3 0x41411000 ∧
    idx2 0x41410000 = idx2 0x41411000 ∧ idx1 0x41410000 ≠ idx1 0x41411000 ∧
    leafAt State.reset.root 0 1 10 16 = none ∧ leafAt State.reset.root 0 1 10 17 = none := by decide

theorem witness_SiblingsShareAncestorsNotLeaves_runs :
    ∃ t u, exec (.insert 0x41410000 0x81810000 0x3) State.reset = .next t ∧
      exec (.insert 0x41411000 0x200000 0x8000000000000001) t = .next u := ⟨_, _, rfl, rfl⟩

/-- The two INSERTs of program P2. -/
def p2 : List InsertOp := [⟨0x41410000, 0x81810000, 0x3⟩, ⟨0x41411000, 0x00200000, 0x8000000000000001⟩]

theorem witness_TreeIsTheUnionOfItsInserts :
    let s : State := { State.reset with inputs := p2.map (insertMove State.reset.alloc) }
    s.phase = .buildable ∧ s.root = Root.empty ∧ s.inputs = p2.map (insertMove State.reset.alloc) := ⟨rfl, rfl, rfl⟩

theorem witness_InsertOrderMattersForAddressesOnly :
    (∀ x ∈ p2, ∃ y ∈ p2.reverse, samePath x.vaddr y.vaddr ∧ y.flags = x.flags) ∧
    (∀ y ∈ p2.reverse, ∃ x ∈ p2, samePath y.vaddr x.vaddr ∧ x.flags = y.flags) := by
  constructor <;> intro x hx <;> exact ⟨x, by simpa using hx, ⟨rfl, rfl, rfl, rfl⟩, rfl⟩

theorem witness_InsertOrderMattersForAddressesOnly_runs :
    ∃ t v, Sys2Proof.core.run 2 { State.reset with inputs := p2.map (insertMove State.reset.alloc) } = .next t ∧
      Sys2Proof.core.run 2 { State.reset with inputs := p2.reverse.map (insertMove (failAt 0)) } = .next v :=
  ⟨_, _, rfl, rfl⟩

/-- First clause: an occupied path (it is allowed for Read and not for Write). Second clause: an empty slot. -/
theorem witness_TranslateAnswersByTheFourLevels :
    one.phase = .buildable ∧ (pdptAt one.root (idx4 0x41410000)).isSome = true ∧
    (pdAt one.root (idx4 0x41410000) (idx3 0x41410000)).isSome = true ∧
    (ptAt one.root (idx4 0x41410000) (idx3 0x41410000) (idx2 0x41410000)).isSome = true ∧
    (leafAt one.root (idx4 0x41410000) (idx3 0x41410000) (idx2 0x41410000) (idx1 0x41410000)).isSome = true ∧
    leafAt one.root (idx4 0x41411000) (idx3 0x41411000) (idx2 0x41411000) (idx1 0x41411000) = none := by decide

theorem test_translate_both_answers :
    answer (exec (.translate 0x41410123 0b001) one) = some (.translateOk 0x81810123) ∧
    answer (exec (.translate 0x41410123 0b010) one) = some .translateMiss := by decide

theorem witness_TranslateReducesToLeafAndOutermostNx :
    stateOk siblings = true ∧ siblings.phase = .buildable ∧ (pdptAt siblings.root (idx4 0x41410000)).isSome = true ∧
    (leafAt siblings.root (idx4 0x41410000) (idx3 0x41410000) (idx2 0x41410000) (idx1 0x41410000)).isSome = true := by
  decide +kernel

theorem witness_TranslateReadsThreeFlagBitsOnly :
    (∀ f : Flags, (f &&& 0x8000000000000003#64).getLsbD 0 = f.getLsbD 0 ∧
      (f &&& 0x8000000000000003#64).getLsbD 1 = f.getLsbD 1 ∧ (f &&& 0x8000000000000003#64).getLsbD 63 = f.getLsbD 63) ∧
    ∃ t, exec (.translate 0x41410000 0b001) one = .next t := ⟨fun f => by simp, _, rfl⟩

theorem witness_RoundTripOnAFreshPath :
    wide.phase = .buildable ∧ pdptAt wide.root (idx4 0x8000000000) = none ∧ (0x1 : Word).getLsbD 0 = true ∧
    idx4 0x8000000000 = 1 := by decide

theorem witness_NxOnASharedAncestorDeniesExecute :
    (0x8000000000000001 : Word).getLsbD 63 = true ∧ (0b100 : Prot).getLsbD 2 = true ∧ idx4 0x41410000 = idx4 0x41411000 ∧
    ∃ t u, exec (.insert 0x41411000 0x200000 0x8000000000000001) one = .next t ∧
      exec (.insert 0x41410000 0x81810000 0x3) t = .next u := ⟨by decide, by decide, by decide, _, _, rfl, rfl⟩

theorem witness_TranslateSumNeverCarries :
    stateOk one = true ∧ one.phase = .buildable ∧
    exec (.translate 0x41410FFF 0b001) one = .next { one with responses := .translateOk 0x81810FFF :: one.responses } :=
  ⟨by decide +kernel, rfl, rfl⟩

theorem witness_TranslatesCommute : ∃ t u t' u',
    exec (.translate 0x41410000 0b001) one = .next t ∧ exec (.translate 0x41411000 0b001) t = .next u ∧
    exec (.translate 0x41411000 0b001) one = .next t' ∧ exec (.translate 0x41410000 0b001) t' = .next u' :=
  ⟨_, _, _, _, rfl, rfl, rfl, rfl⟩

/-- Both clauses, the second at the first and at the last request. -/
theorem witness_CommitOutcomeAndRequests :
    one.phase = .buildable ∧ allocAll one.alloc (pageCount one.root) ∧ pageCount one.root = 4 ∧
    allocFailsFirst (failAt 0) 0 ∧ allocFailsFirst (failAt 3) 3 := by
  refine ⟨rfl, fun k _ => ?_, by decide, by simp [allocFailsFirst, failAt, allocOk], by decide, ?_⟩
  · simp [one, stateOf, State.reset, allocOk]
  · decide

/-- With T58: a failure that is never asked for does no harm. -/
theorem witness_commit_boundary : allocAll (failAt 4) (pageCount one.root) ∧ ¬ allocAll (failAt 3) (pageCount one.root) := by
  constructor
  · unfold allocAll; decide
  · unfold allocAll; decide

theorem witness_CommitPagesAreContiguousFromZero :
    stateOk wide = true ∧ wide.phase = .buildable ∧ ∃ t rootPa im,
      exec .commit wide = .next t ∧ t.responses = .commitOk rootPa im :: wide.responses :=
  ⟨by decide +kernel, rfl, _, _, _, rfl, rfl⟩

theorem witness_CommitWritesEveryEntryWord :
    stateOk wide = true ∧ wide.phase = .buildable ∧ allocAll wide.alloc (pageCount wide.root) :=
  ⟨by decide +kernel, rfl, fun k _ => by simp [wide, stateOf, State.reset, allocOk]⟩

theorem witness_ImageWalkAgreesWithTranslate :
    stateOk siblings = true ∧ siblings.phase = .buildable ∧ leavesFit siblings.root = true ∧
    allocAll siblings.alloc (pageCount siblings.root) :=
  ⟨by decide +kernel, rfl, by decide +kernel, fun k _ => by simp [siblings, stateOf, State.reset, allocOk]⟩

/-- Both clauses at the ends of their ranges: the first and the last page, a leaf below 2^52 and one above. -/
theorem witness_EntryWordPartsAreRecoverable :
    0 < Config.maxPages ∧ Config.maxPages - 1 < Config.maxPages ∧
    subFlags 0x80000000000000BF Config.intermediateFlagMask = true ∧
    leafOk ⟨0x000FFFFFFFFFF000, 0x80000000000001FF⟩ = true ∧
    leafOk ⟨0x7FFFFFFFFFFFF000, 0x80000000000001FF⟩ = true ∧
    (0x7FFFFFFFFFFFF000 : Word).getLsbD 63 = false ∧ (0x000FFFFFFFFFF000 : Word).toNat < 2 ^ 52 := by decide

theorem witness_CommitOfTheEmptyTree :
    State.reset.phase = .buildable ∧ State.reset.root = Root.empty ∧ allocOk State.reset.alloc 0 = true := by decide

theorem witness_CommitDependsOnTheTreeAlone :
    let u : State := { one with alloc := failAt 4, responses := [.insertOk] }
    one.phase = .buildable ∧ u.phase = .buildable ∧ u.root = one.root ∧
    allocAll one.alloc (pageCount one.root) ∧ allocAll u.alloc (pageCount one.root) :=
  ⟨rfl, rfl, rfl, fun k _ => by simp [one, stateOf, State.reset, allocOk], witness_commit_boundary.1⟩

theorem witness_CommitIsOneShot : (∃ t, exec .commit one = .next t) ∧ ∃ t, exec .commit spent = .next t :=
  ⟨⟨_, rfl⟩, _, rfl⟩

/-- For the statements whose one hypothesis is the invariant: a tree with two branches. -/
theorem witness_stateOk : stateOk wide = true := by decide +kernel

theorem witness_StoresAreLittleEndian : Memory.wf [(3, 1), (7, 2)] := by decide

theorem witness_TreeCommandsAnswerConsumed : spent.phase = .consumed := rfl

theorem witness_StatusCodesAndTheirOperations : ∃ t u v,
    exec (.translate 0x41411000 0b001) one = .next t ∧ exec .commit { one with alloc := failAt 0 } = .next u ∧
    exec .commit spent = .next v ∧ answer (.next t) = some .translateMiss ∧ answer (.next u) = some .allocFail ∧
    answer (.next v) = some .consumed := ⟨_, _, _, rfl, rfl, rfl, rfl, rfl, rfl⟩

theorem witness_PhaseChangesByCommitAndResetOnly :
    (∃ t, step { one with inputs := [.command 3 one.alloc] } = .next t ∧ t.phase ≠ one.phase) ∧
    ∃ t, step { spent with inputs := [.reset] } = .next t ∧ t.phase ≠ spent.phase := by
  exact ⟨⟨_, rfl, by decide⟩, _, rfl, by decide⟩

theorem witness_TreeOnlyGrowsUntilCommit :
    ∃ t, exec (.insert 0x41411000 0x200000 0x3) one = .next t ∧ t.phase = .buildable := ⟨_, rfl, rfl⟩

theorem witness_OnlyCommitAsksTheAllocator : ∃ t, exec .commit one = .next t ∧ t.requests ≠ one.requests :=
  ⟨_, rfl, by decide⟩

theorem witness_NoHiddenState :
    let u : State := { one with responses := [.insertOk], requests := 7, inputs := [.reset] }
    u.phase = one.phase ∧ u.root = one.root ∧ u.alloc = one.alloc := ⟨rfl, rfl, rfl⟩

theorem witness_ImagesHandedOverAreNeverTouched : ∃ t, step { one with inputs := [.reset] } = .next t := ⟨_, rfl⟩

/-- A COMMIT and, after a reset, another. -/
theorem witness_ProperUseNeverMeetsConsumed :
    properUse .buildable [.command 3 (failAt 0), .command 0 (failAt 0), .reset, .command 3 (failAt 0)] = true ∧
    ∃ t, Sys2Proof.core.run 4 { State.reset with
      inputs := [.command 3 (failAt 0), .command 0 (failAt 0), .reset, .command 3 (failAt 0)] } = .next t :=
  ⟨by decide, _, rfl⟩

/-- A COMMIT after a COMMIT is not proper use. -/
theorem test_properUse_refuses_second_commit :
    properUse .buildable [.command 3 (failAt 4), .command 3 (failAt 4)] = false := by decide

theorem witness_StepRunsTheDecodedCommand :
    { State.reset with inputs := [.command 3 (failAt 0)] }.inputs = .command 3 (failAt 0) :: [] := rfl

theorem witness_ResetGivesTheEmptyTree : { spent with inputs := [.reset] }.inputs = .reset :: [] := rfl

theorem witness_EngineWaitsForTheHost : one.inputs = [] := rfl

theorem witness_InvariantKeptByEveryStep :
    stateOk { one with inputs := [.command 3 one.alloc] } = true ∧
    ∃ t, step { one with inputs := [.command 3 one.alloc] } = .next t := ⟨by decide +kernel, _, rfl⟩

theorem witness_DecodeInvertsEncode : (Instr.translate 0xFFFFFFFFFFFFFFFF 0b111).wf = true := rfl

/-- A tree with a history, and an INSERT step, a COMMIT step and a reset step from it. -/
theorem witness_EveryStepKeepsTheHistory :
    builtBy [] State.reset.root ∧
    (∃ t, step (State.reset.withFetchWord 200 0x2000000010302000000000000828200001) = .next t) ∧
    historyAfter (State.reset.withFetchWord 200 0x2000000010302000000000000828200001) [] =
      [⟨0x41410000, 0x81810000, 0x1⟩] ∧
    historyAfter (one.withFetchWord 200 0x3) [⟨0x41410000, 0x81810000, 0x1⟩] = [] ∧
    historyAfter { one with inputs := [.reset] } [⟨0x41410000, 0x81810000, 0x1⟩] = [] :=
  ⟨⟨fun _ => rfl, fun _ _ => rfl, fun _ _ _ => rfl, fun _ _ _ _ => rfl, fun _ _ _ _ => rfl⟩, ⟨_, rfl⟩, by decide,
    by decide, by decide⟩

/-- Each of the four clauses, with words that differ in the bits the clause lets differ. -/
theorem witness_UnusedOperandBitsHaveNoEffect :
    (opField 0x828200000 = 0b00 ∧ opField 0x82820001C = 0b00 ∧ vaddrField 0x82820001C = vaddrField 0x828200000) ∧
    (opField 0x2000000010302000000000000828200001 = 0b01 ∧ opField 0x4020000000103020002000000008282000fd = 0b01 ∧
      (vaddrField 0x4020000000103020002000000008282000fd).extractLsb' 12 36 =
        (vaddrField 0x2000000010302000000000000828200001).extractLsb' 12 36 ∧
      (paddrField 0x4020000000103020002000000008282000fd).extractLsb' 12 52 =
        (paddrField 0x2000000010302000000000000828200001).extractLsb' 12 52 ∧
      flagsField 0x4020000000103020002000000008282000fd &&& Config.intermediateFlagMask =
        flagsField 0x2000000010302000000000000828200001 &&& Config.intermediateFlagMask ∧
      flagsField 0x4020000000103020002000000008282000fd &&& Config.leafFlagMask =
        flagsField 0x2000000010302000000000000828200001 &&& Config.leafFlagMask) ∧
    (opField 0x82828000A = 0b10 ∧ opField 0x82828000E = 0b10 ∧
      (vaddrField 0x82828000E).extractLsb' 0 48 = (vaddrField 0x82828000A).extractLsb' 0 48 ∧
      (protField 0x82828000E).extractLsb' 1 2 = (protField 0x82828000A).extractLsb' 1 2) ∧
    (opField 0x3 = 0b11 ∧ opField (BitVec.ofNat 197 (2 ^ 197 - 1)) = 0b11) := by decide

end Sys2Proof.Tests
end

/-! SUPPORT. The well-formedness of the tree (R12 to R16) in terms of its parts, and that an INSERT keeps it. -/

namespace Sys2Proof.Machine

/-! ## Flag sets within flag sets -/

/-- `subFlags` bit by bit. -/
theorem subFlags_iff {f g : Flags} : subFlags f g = true ↔ ∀ i, f.getLsbD i = true → g.getLsbD i = true := by
  rw [subFlags, beq_iff_eq]
  constructor
  · intro h i hf
    have hbit : (f &&& ~~~g).getLsbD i = false := by simp [h]
    have hi : i < 64 := BitVec.lt_of_getLsbD hf
    simpa [hf, hi] using hbit
  · intro h
    refine BitVec.eq_of_getLsbD_eq fun i hi => ?_
    cases hf : f.getLsbD i with
    | false => simp [hf]
    | true => simp [h i hf]

theorem subFlags_zero (g : Flags) : subFlags 0 g = true := subFlags_iff.2 (by simp)

theorem subFlags_refl (f : Flags) : subFlags f f = true :=
  subFlags_iff.2 fun _ h => h

theorem subFlags_and_mask (f m : Flags) : subFlags (f &&& m) m = true :=
  subFlags_iff.2 fun i h => by simp_all

theorem subFlags_union {f g m : Flags} (hf : subFlags f m = true) (hg : subFlags g m = true) :
    subFlags (flagUnion f g) m = true := by
  rw [subFlags_iff] at *
  intro i h
  rw [flagUnion, BitVec.getLsbD_or, Bool.or_eq_true] at h
  exact h.elim (hf i) (hg i)

theorem subFlags_union_left {f g : Flags} (h : Flags) (hfg : subFlags f g = true) :
    subFlags f (flagUnion g h) = true := by
  rw [subFlags_iff] at *
  intro i hi
  simp [flagUnion, hfg i hi]

theorem subFlags_union_right (f g : Flags) : subFlags g (flagUnion f g) = true :=
  subFlags_iff.2 fun i h => by simp [flagUnion, h]

theorem subFlags_union_mono {f g : Flags} (h : Flags) (hfg : subFlags f g = true) :
    subFlags (flagUnion f h) (flagUnion g h) = true :=
  subFlags_union (subFlags_union_left h hfg) (subFlags_union_right g h)

theorem subFlags_trans {f g h : Flags} (hfg : subFlags f g = true) (hgh : subFlags g h = true) :
    subFlags f h = true := by
  rw [subFlags_iff] at *
  exact fun i hi => hgh i (hfg i hi)

/-- Truncating a union is the union of the truncations. -/
theorem truncI_union (f g : Word) : truncI (flagUnion f g) = flagUnion (truncI f) (truncI g) := by
  simp only [truncI, flagUnion]
  exact BitVec.eq_of_getLsbD_eq fun i _ => by
    simp only [BitVec.getLsbD_and, BitVec.getLsbD_or, Bool.and_or_distrib_right]

/-- What a leaf keeps of an operand is no more, for the intermediate flags, than what a node keeps (R57). -/
theorem truncI_truncL_sub (f : Word) : subFlags (truncI (truncL f)) (truncI f) = true :=
  subFlags_iff.2 fun i h => by
    simp only [truncI, truncL, BitVec.getLsbD_and, Bool.and_eq_true] at h ⊢
    exact ⟨h.1.1, h.2⟩

/-! ## Well-formed nodes -/

section
variable {α : Type} {childOk : α → Bool} {childFlags : α → Flags}

theorem nodeOk_iff {n : Node α} :
    nodeOk childOk childFlags n = true ↔
      subFlags n.flags Config.intermediateFlagMask = true ∧ risingSlots n.slots = true ∧ n.slots ≠ [] ∧
        ∀ e ∈ n.slots, childOk e.2 = true ∧ subFlags (childFlags e.2) n.flags = true := by
  simp [nodeOk, and_assoc]

theorem nodeOk_rising {n : Node α} (h : nodeOk childOk childFlags n = true) : risingSlots n.slots = true :=
  (nodeOk_iff.1 h).2.1

theorem nodeOk_child {n : Node α} (h : nodeOk childOk childFlags n = true) {e : Index × α} (he : e ∈ n.slots) :
    childOk e.2 = true :=
  ((nodeOk_iff.1 h).2.2.2 e he).1

end

theorem rootOk_iff {r : Root} :
    rootOk r = true ↔ risingSlots r.slots = true ∧ ∀ e ∈ r.slots, pdptOk e.2 = true := by
  simp [rootOk]

theorem rootOk_empty : rootOk Root.empty = true := by decide

theorem leafOk_iff {l : Leaf} :
    leafOk l = true ↔ l.addr &&& ~~~Config.paStoreMask = 0 ∧ subFlags l.flags Config.leafFlagMask = true := by
  simp [leafOk]

/-! ## What a slot update keeps -/

section
variable {α : Type}

theorem risingSlots_slotUpdate {xs : Slots α} (i : Index) (f : Option α → α) (h : risingSlots xs = true) :
    risingSlots (slotUpdate xs i f) = true :=
  risingSlots_slotSet i _ h

theorem slotUpdate_ne_nil (xs : Slots α) (i : Index) (f : Option α → α) : slotUpdate xs i f ≠ [] :=
  slotSet_ne_nil xs i _

/-- What holds of every listed child and of the new child holds of every child listed after a slot update. -/
theorem forall_mem_slotUpdate (P : α → Prop) {xs : Slots α} {i : Index} {f : Option α → α}
    (hold : ∀ e ∈ xs, P e.2) (hnew : P (f (slotGet xs i))) : ∀ e ∈ slotUpdate xs i f, P e.2 := by
  intro e he
  rcases mem_slotSet he with rfl | he
  · exact hnew
  · exact hold e he

end

/-! ## One level of an INSERT -/

/-- What the step of an INSERT into one slot has to keep: the new child is well-formed where the old one, if any, was,
and its intermediate flags gain nothing but the truncated operand. -/
def StepKeeps {α : Type} (childOk : α → Bool) (childFlags : α → Flags) (flags : Word) (step : Option α → α) : Prop :=
  ∀ old : Option α, (∀ c, old = some c → childOk c = true) →
    childOk (step old) = true ∧
      subFlags (childFlags (step old)) (flagUnion ((old.map childFlags).getD 0) (truncI flags)) = true

/-- The leaf step makes a well-formed leaf (R15, R95). -/
theorem leafStep_keeps (paddr flags : Word) :
    StepKeeps leafOk (fun l => truncI l.flags) flags (leafStep paddr flags) := by
  intro old hold
  have haddr : storedAddr paddr &&& ~~~Config.paStoreMask = 0 :=
    eq_of_beq (subFlags_and_mask paddr Config.paStoreMask)
  have hnew : subFlags (truncL flags) Config.leafFlagMask = true := subFlags_and_mask _ _
  cases old with
  | none =>
    refine ⟨leafOk_iff.2 ⟨haddr, subFlags_union (subFlags_zero _) hnew⟩, ?_⟩
    simpa [leafStep, flagUnion] using truncI_truncL_sub flags
  | some l =>
    have hl := (leafOk_iff.1 (hold l rfl)).2
    refine ⟨leafOk_iff.2 ⟨haddr, subFlags_union hl hnew⟩, ?_⟩
    simp only [leafStep, Option.map_some, Option.getD_some, truncI_union]
    exact subFlags_union (subFlags_union_left _ (subFlags_refl _))
      (subFlags_trans (truncI_truncL_sub flags) (subFlags_union_right _ _))

/-- A missing node counts as the empty one, which satisfies all that `nodeOk` asks but an occupied slot. -/
theorem getD_emptyNode_ok {α : Type} {childOk : α → Bool} {childFlags : α → Flags} {old : Option (Node α)}
    (hold : ∀ n, old = some n → nodeOk childOk childFlags n = true) :
    subFlags (old.getD emptyNode).flags Config.intermediateFlagMask = true ∧
      risingSlots (old.getD emptyNode).slots = true ∧
      ∀ e ∈ (old.getD emptyNode).slots,
        childOk e.2 = true ∧ subFlags (childFlags e.2) (old.getD emptyNode).flags = true := by
  cases old with
  | none => exact ⟨subFlags_zero _, rfl, fun e he => absurd he (List.not_mem_nil)⟩
  | some n =>
    obtain ⟨hflags, hrising, -, hchildren⟩ := nodeOk_iff.1 (hold n rfl)
    exact ⟨hflags, hrising, hchildren⟩

/-- The intermediate step makes a well-formed node if the step below does (R12 to R14, R16 item 6, R93, R94). -/
theorem passThrough_keeps {α : Type} {childOk : α → Bool} {childFlags : α → Flags} {flags : Word}
    {below : Option α → α} (hbelow : StepKeeps childOk childFlags flags below) (i : Index) :
    StepKeeps (nodeOk childOk childFlags) Node.flags flags
      (passThrough flags fun xs => slotUpdate xs i below) := by
  intro old hold
  obtain ⟨hflags, hrising, hchildren⟩ := getD_emptyNode_ok hold
  obtain ⟨hnewOk, hnewFlags⟩ := hbelow (slotGet (old.getD emptyNode).slots i)
    fun c hc => (hchildren _ (mem_of_slotGet hc)).1
  have hnewSub : subFlags (childFlags (below (slotGet (old.getD emptyNode).slots i)))
      (flagUnion (old.getD emptyNode).flags (truncI flags)) = true := by
    refine subFlags_trans hnewFlags (subFlags_union_mono _ ?_)
    cases hc : slotGet (old.getD emptyNode).slots i with
    | none => exact subFlags_zero _
    | some c => exact (hchildren _ (mem_of_slotGet hc)).2
  constructor
  · refine nodeOk_iff.2 ⟨subFlags_union hflags (subFlags_and_mask _ _), risingSlots_slotUpdate i _ hrising,
      slotUpdate_ne_nil _ _ _, ?_⟩
    exact forall_mem_slotUpdate
      (fun c => childOk c = true ∧
        subFlags (childFlags c) (flagUnion (old.getD emptyNode).flags (truncI flags)) = true)
      (fun e he => ⟨(hchildren e he).1, subFlags_union_left _ (hchildren e he).2⟩) ⟨hnewOk, hnewSub⟩
  · cases old <;> exact subFlags_refl _

/-! ## The whole path of an INSERT -/

/-- The step of an INSERT into a slot of a PD node: the PT node there and the leaf below it. -/
def ptStep (va pa flags : Word) : Option PtNode → PtNode :=
  passThrough flags fun xs => slotUpdate xs (idx1 va) (leafStep pa flags)

/-- The step of an INSERT into a slot of a PDPT node. -/
def pdStep (va pa flags : Word) : Option PdNode → PdNode :=
  passThrough flags fun xs => slotUpdate xs (idx2 va) (ptStep va pa flags)

/-- The step of an INSERT into a slot of the root. -/
def pdptStep (va pa flags : Word) : Option PdptNode → PdptNode :=
  passThrough flags fun xs => slotUpdate xs (idx3 va) (pdStep va pa flags)

/-- INSERT is its step into the root's slot. -/
theorem insertTree_slots (r : Root) (va pa flags : Word) :
    (insertTree r va pa flags).slots = slotUpdate r.slots (idx4 va) (pdptStep va pa flags) := rfl

theorem pdptStep_keeps (va pa flags : Word) : StepKeeps pdptOk Node.flags flags (pdptStep va pa flags) :=
  passThrough_keeps (passThrough_keeps (passThrough_keeps (leafStep_keeps pa flags) (idx1 va)) (idx2 va)) (idx3 va)

/-- An INSERT keeps the tree well-formed. -/
theorem rootOk_insertTree {r : Root} (va pa flags : Word) (h : rootOk r = true) :
    rootOk (insertTree r va pa flags) = true := by
  obtain ⟨hrising, hchildren⟩ := rootOk_iff.1 h
  rw [rootOk_iff, insertTree_slots]
  refine ⟨risingSlots_slotUpdate _ _ hrising, forall_mem_slotUpdate (fun n => pdptOk n = true) hchildren ?_⟩
  exact (pdptStep_keeps va pa flags _ fun n hn => hchildren _ (mem_of_slotGet hn)).1

end Sys2Proof.Machine

/-! SUPPORT. How many nodes a tree has (R27), and how many requests a COMMIT that succeeds makes (R144, R153). -/

namespace Sys2Proof.Machine

/-! ## Bounds on the levels of a tree -/

/-- Below `ns` nodes in rising form stand at most `512 * ns` children. -/
theorem length_children_le {α : Type} {ns : List (Node α)} (h : ∀ n ∈ ns, risingSlots n.slots = true) :
    (ns.flatMap fun n => n.slots.map Prod.snd).length ≤ 512 * ns.length := by
  induction ns with
  | nil => simp
  | cons n ns ih =>
    have hn := length_le_of_risingSlots (h n (by simp))
    have hns := ih fun m hm => h m (by simp [hm])
    simp only [List.flatMap_cons, List.length_append, List.length_map, List.length_cons]
    omega

/-- The children of well-formed nodes are well-formed. -/
theorem childOk_of_mem_flatMap {α : Type} {childOk : α → Bool} {childFlags : α → Flags} {ns : List (Node α)}
    (h : ∀ n ∈ ns, nodeOk childOk childFlags n = true) :
    ∀ c ∈ ns.flatMap fun n => n.slots.map Prod.snd, childOk c = true := by
  intro c hc
  obtain ⟨n, hn, hc⟩ := List.mem_flatMap.1 hc
  obtain ⟨e, he, rfl⟩ := List.mem_map.1 hc
  exact nodeOk_child (h n hn) he

theorem pdptOk_of_mem {r : Root} (h : rootOk r = true) : ∀ n ∈ pdptNodes r, pdptOk n = true := by
  intro n hn
  obtain ⟨e, he, rfl⟩ := List.mem_map.1 hn
  exact (rootOk_iff.1 h).2 e he

theorem pdOk_of_mem {r : Root} (h : rootOk r = true) : ∀ n ∈ pdNodes r, pdOk n = true :=
  childOk_of_mem_flatMap (pdptOk_of_mem h)

theorem ptOk_of_mem {r : Root} (h : rootOk r = true) : ∀ n ∈ ptNodes r, ptOk n = true :=
  childOk_of_mem_flatMap (pdOk_of_mem h)

theorem length_pdptNodes_le {r : Root} (h : rootOk r = true) : (pdptNodes r).length ≤ 512 := by
  simpa [pdptNodes] using length_le_of_risingSlots (rootOk_iff.1 h).1

theorem length_pdNodes_le {r : Root} (h : rootOk r = true) : (pdNodes r).length ≤ 512 * (pdptNodes r).length :=
  length_children_le fun n hn => nodeOk_rising (pdptOk_of_mem h n hn)

theorem length_ptNodes_le {r : Root} (h : rootOk r = true) : (ptNodes r).length ≤ 512 * (pdNodes r).length :=
  length_children_le fun n hn => nodeOk_rising (pdOk_of_mem h n hn)

theorem length_leaves_le {r : Root} (h : rootOk r = true) : (leaves r).length ≤ 512 * (ptNodes r).length :=
  length_children_le fun n hn => nodeOk_rising (ptOk_of_mem h n hn)

/-- R27: a well-formed tree has at most `maxPages` page-bearing nodes. -/
theorem pageCount_le {r : Root} (h : rootOk r = true) : pageCount r ≤ Config.maxPages := by
  have h3 := length_pdptNodes_le h
  have h2 := length_pdNodes_le h
  have h1 := length_ptNodes_le h
  simp only [pageCount, Config.maxPages]
  omega

theorem pageCount_pos (r : Root) : 0 < pageCount r := by
  simp only [pageCount]
  omega

/-! ## The requests of a COMMIT that succeeds -/

/-- The pages of a PD node's subtree: its own and one for each PT node. -/
def pdPages (n : PdNode) : Nat := 1 + n.slots.length

/-- The pages of a PDPT node's subtree. -/
def pdptPages (n : PdptNode) : Nat := 1 + (n.slots.map fun e => pdPages e.2).sum

/-- The pages below a PDPT node: its PD nodes and their PT nodes. -/
theorem sum_pdPages (xs : Slots PdNode) : (xs.map fun e => pdPages e.2).sum
    = xs.length + ((xs.map Prod.snd).flatMap fun n => n.slots.map Prod.snd).length := by
  induction xs with
  | nil => rfl
  | cons e xs ih =>
    rw [List.map_cons, List.sum_cons, ih]
    simp only [pdPages, List.map_cons, List.flatMap_cons, List.length_append, List.length_map, List.length_cons]
    omega

/-- The pages of a tree, counted subtree by subtree as COMMIT goes through it, are the nodes counted level by level. -/
theorem pageCount_eq_sum (r : Root) : pageCount r = 1 + (r.slots.map fun e => pdptPages e.2).sum := by
  simp only [pageCount, ptNodes, pdNodes, pdptNodes]
  induction r.slots with
  | nil => rfl
  | cons e xs ih =>
    simp only [List.map_cons, List.sum_cons, List.flatMap_cons, List.flatMap_append, List.length_append,
      List.length_map, List.length_cons, pdptPages, sum_pdPages] at ih ⊢
    omega

/-- A subtree's COMMIT makes exactly `size` requests where it succeeds. -/
def CommitCounts {α : Type} (child : Node α → CommitRun → Except Nat (Word × CommitRun)) (size : Node α → Nat) :
    Prop :=
  ∀ n c pa d, child n c = .ok (pa, d) → d.nreq = c.nreq + size n

theorem commitChildren_counts {α : Type} {child : Node α → CommitRun → Except Nat (Word × CommitRun)}
    {size : Node α → Nat} (hchild : CommitCounts child size) {ppa : Word} {xs : Slots (Node α)} {c d : CommitRun}
    (h : commitChildren child ppa xs c = .ok d) : d.nreq = c.nreq + (xs.map fun e => size e.2).sum := by
  induction xs generalizing c with
  | nil => cases h; rfl
  | cons e xs ih =>
    obtain ⟨cpa, c', hc, hrest⟩ := commitChildren_cons_ok h
    have hhead := hchild _ _ _ _ hc
    have htail := ih hrest
    simp only [storeEntry_nreq] at htail
    simp only [List.map_cons, List.sum_cons]
    omega

theorem commitPage_counts {α : Type} {a : Alloc} {child : Node α → CommitRun → Except Nat (Word × CommitRun)}
    {size : Node α → Nat} (hchild : CommitCounts child size) {xs : Slots (Node α)} {c d : CommitRun} {pa : Word}
    (h : commitPage a child xs c = .ok (pa, d)) : d.nreq = c.nreq + (1 + (xs.map fun e => size e.2).sum) := by
  obtain ⟨-, -, hchildren⟩ := commitPage_ok h
  have hcount := commitChildren_counts hchild hchildren
  simp only at hcount
  omega

theorem commitPt_counts (a : Alloc) : CommitCounts (commitPt a) fun _ => 1 := by
  intro n c pa d h
  obtain ⟨-, -, rfl⟩ := commitPt_ok h
  simp

theorem commitPd_counts (a : Alloc) : CommitCounts (commitPd a) pdPages := by
  intro n c pa d h
  simpa [pdPages] using commitPage_counts (commitPt_counts a) h

theorem commitPdpt_counts (a : Alloc) : CommitCounts (commitPdpt a) pdptPages :=
  fun _ _ _ _ h => commitPage_counts (commitPd_counts a) h

/-- A COMMIT that succeeds makes one request for every page-bearing node (R144, R153). -/
theorem commitTree_counts {a : Alloc} {r : Root} {pa : Word} {c : CommitRun} (h : commitTree a r = .ok (pa, c)) :
    c.nreq = pageCount r := by
  have hcount := commitPage_counts (commitPdpt_counts a) h
  simpa [startRun, pageCount_eq_sum] using hcount

end Sys2Proof.Machine

/-! SUPPORT. The image of a COMMIT: consecutive pages from 0, and every stored byte inside one of them (R32, R37, R141). -/

namespace Sys2Proof.Machine

/-! ## Pages -/

theorem pageAddrs_succ (n : Nat) : pageAddrs (n + 1) = pageAddrs n ++ [BitVec.ofNat 64 (4096 * n)] := by
  simp [pageAddrs, List.range_succ]

@[simp] theorem length_pageAddrs (n : Nat) : (pageAddrs n).length = n := by simp [pageAddrs]

theorem pageAddrs_subset {m n : Nat} (h : m ≤ n) : pageAddrs m ⊆ pageAddrs n :=
  List.map_subset _ (List.range_subset.2 h)

/-- A page leaves room for its 4096 bytes below `2^64`. -/
theorem toNat_add_le_of_mem_pageAddrs {n : Nat} {p : Word} (h : p ∈ pageAddrs n) : p.toNat + 4096 ≤ 2 ^ 64 := by
  obtain ⟨k, -, rfl⟩ := List.mem_map.1 h
  simp only [BitVec.toNat_ofNat]
  omega

theorem inImage_iff {im : Image} {a : Nat} :
    inImage im a = true ↔ ∃ p ∈ im.pages, p.toNat ≤ a ∧ a < p.toNat + 4096 := by
  simp [inImage, Config.pageSize]

/-- More pages hold what fewer pages hold. -/
theorem inImage_mono {im jm : Image} (h : im.pages ⊆ jm.pages) {a : Nat} (ha : inImage im a = true) :
    inImage jm a = true := by
  obtain ⟨p, hp, hrange⟩ := inImage_iff.1 ha
  exact inImage_iff.2 ⟨p, h hp, hrange⟩

/-- Entry `i` of a page that ends below `2^64` stands at `page + 8*i`, without wrapping (R34). -/
theorem entryAddr_toNat {p : Word} (h : p.toNat + 4096 ≤ 2 ^ 64) (i : Index) :
    (entryAddr p i).toNat = p.toNat + 8 * i.toNat := by
  have hi : i.toNat < 512 := i.isLt
  have h8 : Config.entryBytes.toNat = 8 := rfl
  simp only [entryAddr, BitVec.toNat_add, BitVec.toNat_mul, BitVec.toNat_setWidth, h8]
  omega

/-! ## The variables of a running COMMIT -/

/-- What holds of the variables all through a COMMIT: one page for every request made, consecutive from 0, the counter
at the next one (R133), and the bytes in canonical form, all of them in the pages. -/
structure RunOk (c : CommitRun) : Prop where
  next_eq : c.next = BitVec.ofNat 64 (4096 * c.nreq)
  pages_eq : c.image.pages = pageAddrs c.nreq
  bytes_wf : Memory.wf c.image.bytes
  bytes_in : ∀ b ∈ c.image.bytes, inImage c.image b.1 = true

theorem startRun_ok : RunOk startRun :=
  ⟨rfl, rfl, emptyImage_wf, fun _ hb => absurd hb List.not_mem_nil⟩

/-- The variables after a page request that is granted. -/
def grantPage (c : CommitRun) : CommitRun :=
  { next := c.next + Config.pageSize, nreq := c.nreq + 1, image := addPage c.image c.next }

@[simp] theorem grantPage_nreq (c : CommitRun) : (grantPage c).nreq = c.nreq + 1 := rfl

theorem runOk_grantPage {c : CommitRun} (h : RunOk c) : RunOk (grantPage c) where
  next_eq := by
    rw [grantPage, h.next_eq]
    exact BitVec.eq_of_toNat_eq (by simp [Config.pageSize, Nat.mul_add])
  pages_eq := by simp [grantPage, h.pages_eq, h.next_eq, pageAddrs_succ]
  bytes_wf := addPage_wf _ h.bytes_wf
  bytes_in := fun b hb => inImage_mono (List.subset_append_left _ _) (h.bytes_in b hb)

/-- The page just granted is a page of the image. -/
theorem next_mem_grantPage (c : CommitRun) : c.next ∈ (grantPage c).image.pages := by
  simp [grantPage]

/-- A page of the image stays one as further requests are granted. -/
theorem RunOk.pages_subset {c d : CommitRun} (hc : RunOk c) (hd : RunOk d) (h : c.nreq ≤ d.nreq) :
    c.image.pages ⊆ d.image.pages := by
  rw [hc.pages_eq, hd.pages_eq]
  exact pageAddrs_subset h

/-- Storing an entry word into a page of the image. -/
theorem runOk_storeEntry {c : CommitRun} (h : RunOk c) {p : Word} (hp : p ∈ c.image.pages) (i : Index) (w : Word) :
    RunOk (storeEntry c (entryAddr p i) w) where
  next_eq := h.next_eq
  pages_eq := h.pages_eq
  bytes_wf := memWrite64_wf _ _ h.bytes_wf
  bytes_in := by
    intro b hb
    rcases mem_memWriteBytes hb with hrange | hold
    · have hi : i.toNat < 512 := i.isLt
      rw [entryAddr_toNat (toNat_add_le_of_mem_pageAddrs (h.pages_eq ▸ hp))] at hrange
      exact inImage_iff.2 ⟨p, hp, by omega, by omega⟩
    · exact h.bytes_in b hold

/-- Storing the leaf words of a page of the image. -/
theorem runOk_commitLeaves {p : Word} (xs : Slots Leaf) {c : CommitRun} (h : RunOk c) (hp : p ∈ c.image.pages) :
    RunOk (commitLeaves p xs c) := by
  induction xs generalizing c with
  | nil => exact h
  | cons e xs ih => exact ih (runOk_storeEntry h hp e.1 _) hp

/-! ## Subtrees and the whole tree -/

/-- A subtree's COMMIT that succeeds keeps `RunOk` and takes no request back. -/
def CommitKeeps {α : Type} (child : Node α → CommitRun → Except Nat (Word × CommitRun)) : Prop :=
  ∀ n c pa d, child n c = .ok (pa, d) → RunOk c → RunOk d ∧ c.nreq ≤ d.nreq

theorem commitChildren_keeps {α : Type} {child : Node α → CommitRun → Except Nat (Word × CommitRun)}
    (hchild : CommitKeeps child) {p : Word} {xs : Slots (Node α)} {c d : CommitRun}
    (h : commitChildren child p xs c = .ok d) (hc : RunOk c) (hp : p ∈ c.image.pages) :
    RunOk d ∧ c.nreq ≤ d.nreq := by
  induction xs generalizing c with
  | nil => cases h; exact ⟨hc, Nat.le_refl _⟩
  | cons e xs ih =>
    obtain ⟨cpa, c', hhead, hrest⟩ := commitChildren_cons_ok h
    obtain ⟨hc', hle⟩ := hchild _ _ _ _ hhead hc
    have hp' : p ∈ c'.image.pages := hc.pages_subset hc' hle hp
    obtain ⟨hd, hle'⟩ := ih hrest (runOk_storeEntry hc' hp' _ _) hp'
    exact ⟨hd, Nat.le_trans hle hle'⟩

theorem commitPage_keeps {α : Type} {a : Alloc} {child : Node α → CommitRun → Except Nat (Word × CommitRun)}
    (hchild : CommitKeeps child) {xs : Slots (Node α)} {c d : CommitRun} {pa : Word}
    (h : commitPage a child xs c = .ok (pa, d)) (hc : RunOk c) : RunOk d ∧ c.nreq ≤ d.nreq := by
  obtain ⟨-, -, hchildren⟩ := commitPage_ok h
  obtain ⟨hd, hle⟩ := commitChildren_keeps hchild hchildren (runOk_grantPage hc) (next_mem_grantPage c)
  exact ⟨hd, Nat.le_of_succ_le hle⟩

theorem commitPt_keeps (a : Alloc) : CommitKeeps (commitPt a) := by
  intro n c pa d h hc
  obtain ⟨-, -, rfl⟩ := commitPt_ok h
  exact ⟨runOk_commitLeaves n.slots (runOk_grantPage hc) (next_mem_grantPage c), by simp⟩

theorem commitPd_keeps (a : Alloc) : CommitKeeps (commitPd a) :=
  fun _ _ _ _ h hc => commitPage_keeps (commitPt_keeps a) h hc

theorem commitPdpt_keeps (a : Alloc) : CommitKeeps (commitPdpt a) :=
  fun _ _ _ _ h hc => commitPage_keeps (commitPd_keeps a) h hc

/-- A COMMIT that succeeds ends with `RunOk` variables, and its root stands at address 0 (R134). -/
theorem commitTree_ok {a : Alloc} {r : Root} {pa : Word} {c : CommitRun} (h : commitTree a r = .ok (pa, c)) :
    pa = 0 ∧ RunOk c :=
  ⟨(commitPage_ok h).2.1, (commitPage_keeps (commitPdpt_keeps a) h startRun_ok).1⟩

theorem imageOk_iff {im : Image} :
    imageOk im = true ↔ im.pages = pageAddrs im.pages.length ∧ 0 < im.pages.length ∧
      im.pages.length ≤ Config.maxPages ∧ Memory.wf im.bytes ∧ ∀ b ∈ im.bytes, inImage im b.1 = true := by
  simp [imageOk, and_assoc]

/-- The image of a well-formed tree is well-formed: its pages are as many as the tree's page-bearing nodes (R27, R141). -/
theorem imageOk_commitTree {a : Alloc} {r : Root} {pa : Word} {c : CommitRun} (hr : rootOk r = true)
    (h : commitTree a r = .ok (pa, c)) : imageOk c.image = true := by
  obtain ⟨-, hc⟩ := commitTree_ok h
  have hlength : c.image.pages.length = pageCount r := by
    rw [hc.pages_eq, length_pageAddrs, commitTree_counts h]
  refine imageOk_iff.2 ⟨?_, ?_, ?_, hc.bytes_wf, hc.bytes_in⟩
  · rw [hc.pages_eq, length_pageAddrs]
  · rw [hlength]; exact pageCount_pos r
  · rw [hlength]; exact pageCount_le hr

end Sys2Proof.Machine

/-! SUPPORT. What an operation can do to the state, said once; with it the statements on the phase, the invariant and the
pieces of state an operation reads. -/

namespace Sys2Proof.Machine

/-! ## Everything an operation can do -/

/-- The state `t` is what the instruction leaves of the state `s`, one case per row of the outcome table (R166). -/
inductive Effect (s : State) : Instr → State → Prop where
  | index (va : Word) :
      Effect s (.index va) (respond s (.indexOk (idx4 va) (idx3 va) (idx2 va) (idx1 va) (off va)))
  | refusedConsumed (i : Instr) (hop : opOf i ≠ 0b00) (hp : s.phase = .consumed) : Effect s i (respond s .consumed)
  | insert (va pa f : Word) (hp : s.phase = .buildable) :
      Effect s (.insert va pa f) (respond (setRoot s (insertTree s.root va pa f)) .insertOk)
  | translate (va : Word) (prot : Prot) (hp : s.phase = .buildable) :
      Effect s (.translate va prot) (respond s (translateResponse s.root va prot))
  | commitFails (k : Nat) (hp : s.phase = .buildable) (hc : commitTree s.alloc s.root = .error k) :
      Effect s .commit (respond (countRequests (consumeTree s) k) .allocFail)
  | commitSucceeds (rootPa : Word) (c : CommitRun) (hp : s.phase = .buildable)
      (hc : commitTree s.alloc s.root = .ok (rootPa, c)) :
      Effect s .commit (respond (countRequests (consumeTree s) c.nreq) (.commitOk rootPa c.image))

/-- What an answer of `exec` can be. -/
theorem exec_effect {i : Instr} {s t : State} (h : exec i s = .next t) : Effect s i t := by
  cases i with
  | index va => cases h; exact .index va
  | insert va pa f =>
    rcases execInsert_cases h with ⟨hp, rfl⟩ | ⟨hp, rfl⟩
    · exact .refusedConsumed _ (by simp [opOf]) hp
    · exact .insert va pa f hp
  | translate va prot =>
    rcases execTranslate_cases h with ⟨hp, rfl⟩ | ⟨hp, rfl⟩
    · exact .refusedConsumed _ (by simp [opOf]) hp
    · exact .translate va prot hp
  | commit =>
    rcases execCommit_cases h with ⟨hp, rfl⟩ | ⟨hp, k, hc, rfl⟩ | ⟨hp, rootPa, c, hc, rfl⟩
    · exact .refusedConsumed _ (by simp [opOf]) hp
    · exact .commitFails k hp hc
    · exact .commitSucceeds rootPa c hp hc

/-! ## The phase (R18, R131, R180) -/

/-- The one operation that changes the phase is COMMIT, from BUILDABLE to CONSUMED. -/
theorem exec_phase {i : Instr} {s t : State} (h : exec i s = .next t) (hne : t.phase ≠ s.phase) :
    i = .commit ∧ s.phase = .buildable ∧ t.phase = .consumed := by
  cases exec_effect h with
  | index | refusedConsumed | insert | translate => exact absurd rfl hne
  | commitFails k hp => exact ⟨rfl, hp, rfl⟩
  | commitSucceeds rootPa c hp => exact ⟨rfl, hp, rfl⟩

/-! ## The invariant -/

theorem stateOk_iff {s : State} :
    stateOk s = true ↔ rootOk s.root = true ∧ (s.phase = .buildable ∨ s.root = Root.empty) ∧
      ∀ r ∈ s.responses, responseOk r = true := by
  simp [stateOk, and_assoc]

theorem stateOk_reset : stateOk State.reset = true :=
  stateOk_iff.2 ⟨rootOk_empty, .inl rfl, fun _ hr => absurd hr List.not_mem_nil⟩

/-- A well-formed response keeps the invariant. -/
theorem stateOk_respond {s : State} {r : Response} (hs : stateOk s = true) (hr : responseOk r = true) :
    stateOk (respond s r) = true := by
  obtain ⟨hroot, hphase, hresponses⟩ := stateOk_iff.1 hs
  exact stateOk_iff.2 ⟨hroot, hphase, List.forall_mem_cons.2 ⟨hr, hresponses⟩⟩

/-- A well-formed tree in phase BUILDABLE keeps the invariant. -/
theorem stateOk_setRoot {s : State} {r : Root} (hs : stateOk s = true) (hp : s.phase = .buildable)
    (hr : rootOk r = true) : stateOk (setRoot s r) = true := by
  obtain ⟨-, -, hresponses⟩ := stateOk_iff.1 hs
  exact stateOk_iff.2 ⟨hr, .inl hp, hresponses⟩

/-- Taking the tree keeps the invariant, whatever the number of requests (R131). -/
theorem stateOk_consumeTree {s : State} (n : Nat) (hs : stateOk s = true) :
    stateOk (countRequests (consumeTree s) n) = true := by
  obtain ⟨-, -, hresponses⟩ := stateOk_iff.1 hs
  exact stateOk_iff.2 ⟨rootOk_empty, .inr rfl, hresponses⟩

theorem stateOk_hostReset {s : State} (rest : List Input) (hs : stateOk s = true) :
    stateOk (hostReset s rest) = true := by
  obtain ⟨-, -, hresponses⟩ := stateOk_iff.1 hs
  exact stateOk_iff.2 ⟨rootOk_empty, .inl rfl, hresponses⟩

/-- The port and the allocator's answers are no part of the invariant. -/
@[simp] theorem stateOk_accept (s : State) (a : Alloc) (rest : List Input) :
    stateOk (accept s a rest) = stateOk s := rfl

theorem responseOk_translateResponse (r : Root) (va : Word) (prot : Prot) :
    responseOk (translateResponse r va prot) = true := by
  unfold translateResponse
  cases walk r va prot <;> rfl

/-- Every operation keeps the invariant. -/
theorem stateOk_exec {i : Instr} {s t : State} (hs : stateOk s = true) (h : exec i s = .next t) :
    stateOk t = true := by
  have hroot := (stateOk_iff.1 hs).1
  cases exec_effect h with
  | index va => exact stateOk_respond hs rfl
  | refusedConsumed i hop hp => exact stateOk_respond hs rfl
  | insert va pa f hp => exact stateOk_respond (stateOk_setRoot hs hp (rootOk_insertTree va pa f hroot)) rfl
  | translate va prot hp => exact stateOk_respond hs (responseOk_translateResponse _ _ _)
  | commitFails k hp hc => exact stateOk_respond (stateOk_consumeTree k hs) rfl
  | commitSucceeds rootPa c hp hc =>
    obtain ⟨rfl, -⟩ := commitTree_ok hc
    exact stateOk_respond (stateOk_consumeTree c.nreq hs) (by simp [responseOk, imageOk_commitTree hroot hc])

/-- Settles O44: an INSERT makes a well-formed tree of a well-formed one, a COMMIT of a well-formed tree hands over a
well-formed image, and reset and COMMIT leave the empty tree. -/
theorem invariantKeptByEveryStep : Obligations.InvariantKeptByEveryStep := by
  intro s t hs h
  rcases step_cases h with ⟨-, rfl⟩ | ⟨rest, -, rfl⟩ | ⟨w, a, rest, -, h⟩
  · exact hs
  · exact stateOk_hostReset rest hs
  · exact stateOk_exec (by simpa using hs) h

/-- Settles O43. -/
theorem invariantAtReset : Obligations.InvariantAtReset := stateOk_reset

/-- Settles O41: every level of the flat view reads the root's empty list of slots. -/
theorem resetStateIsTheEmptyTree : Obligations.ResetStateIsTheEmptyTree :=
  ⟨rfl, fun _ => rfl, fun _ _ => rfl, fun _ _ _ => rfl, fun _ _ _ _ => rfl⟩

/-- Settles O27, from the bound of 512 slots at each of the four levels. -/
theorem treeSizeBounds : Obligations.TreeSizeBounds := by
  intro s hs
  have hr : rootOk s.root = true := (stateOk_iff.1 hs).1
  have h3 := length_pdptNodes_le hr
  have h2 := length_pdNodes_le hr
  have h1 := length_ptNodes_le hr
  have h0 := length_leaves_le hr
  have hcount : pageCount s.root ≤ 134480385 := pageCount_le hr
  refine ⟨h3, by omega, by omega, by omega, hcount, fun k hk => ?_⟩
  constructor <;> omega

/-- Settles O32: the cases of a step, and `exec_phase` for a command. -/
theorem phaseChangesByCommitAndResetOnly : Obligations.PhaseChangesByCommitAndResetOnly := by
  intro s t h hne
  rcases step_cases h with ⟨-, rfl⟩ | ⟨rest, hi, rfl⟩ | ⟨w, a, rest, hi, h⟩
  · exact absurd rfl hne
  · cases hp : s.phase with
    | buildable => exact absurd hp.symm hne
    | consumed => exact .inr ⟨rfl, rfl, rest, hi⟩
  · obtain ⟨hcommit, hp, ht⟩ := exec_phase h hne
    exact .inl ⟨hp, ht, w, a, rest, hi, hcommit⟩

/-! ## What an operation depends on (R20, R25) -/

/-- In every state with this phase, tree and allocator the operation has one and the same effect. -/
def DependsOn (ph : Phase) (root : Root) (alloc : Alloc) (op : State → Host.Outcome State Fault Refusal) : Prop :=
  ∃ (ph' : Phase) (q : Root) (r : Response) (k : Nat), ∀ s : State, s.phase = ph → s.root = root → s.alloc = alloc →
    op s = .next { s with phase := ph', root := q, responses := r :: s.responses, requests := s.requests + k }

/-- An operation behind the phase check depends on no more than the operation itself. -/
theorem treeCommand_dependsOn {root : Root} {alloc : Alloc} {op : State → Host.Outcome State Fault Refusal}
    (h : DependsOn .buildable root alloc op) (ph : Phase) :
    DependsOn ph root alloc fun s => treeCommand s op := by
  cases ph with
  | consumed =>
    refine ⟨.consumed, root, .consumed, 0, fun s hp hr _ => ?_⟩
    subst hr
    beta_reduce
    rw [treeCommand_consumed hp, ← hp]
    rfl
  | buildable =>
    obtain ⟨ph', q, r, k, hop⟩ := h
    exact ⟨ph', q, r, k, fun s hp hr ha => (treeCommand_buildable hp op).trans (hop s hp hr ha)⟩

theorem exec_dependsOn (i : Instr) (ph : Phase) (root : Root) (alloc : Alloc) :
    DependsOn ph root alloc (exec i) := by
  cases i with
  | index va =>
    refine ⟨ph, root, .indexOk (idx4 va) (idx3 va) (idx2 va) (idx1 va) (off va), 0, fun s hp hr _ => ?_⟩
    subst hp hr
    rfl
  | insert va pa f =>
    refine treeCommand_dependsOn ⟨.buildable, insertTree root va pa f, .insertOk, 0, fun s hp hr _ => ?_⟩ ph
    subst hr
    rw [← hp]
    rfl
  | translate va prot =>
    refine treeCommand_dependsOn ⟨.buildable, root, translateResponse root va prot, 0, fun s hp hr _ => ?_⟩ ph
    subst hr
    rw [← hp]
    rfl
  | commit =>
    refine treeCommand_dependsOn ?_ ph
    cases hc : commitTree alloc root with
    | error k =>
      refine ⟨.consumed, Root.empty, .allocFail, k, fun s _ hr ha => ?_⟩
      subst hr ha
      beta_reduce
      rw [hc]
      rfl
    | ok rc =>
      refine ⟨.consumed, Root.empty, .commitOk rc.1 rc.2.image, rc.2.nreq, fun s _ hr ha => ?_⟩
      subst hr ha
      beta_reduce
      rw [hc]
      rfl

/-- Settles O35: two states that agree on phase, tree and allocator meet the one effect of `exec_dependsOn`. -/
theorem noHiddenState : Obligations.NoHiddenState := by
  intro i s u hp hr ha
  obtain ⟨ph, q, r, k, heffect⟩ := exec_dependsOn i s.phase s.root s.alloc
  exact ⟨ph, q, r, k, heffect s rfl rfl rfl, heffect u hp hr ha⟩

end Sys2Proof.Machine

/-! SUPPORT. What an INSERT does in the flat view of the tree (R17, R93 to R95, R99), and the history it adds to (R16). -/

namespace Sys2Proof.Machine

/-! ## One level -/

theorem passThrough_flags {α : Type} (flags : Word) (below : Slots α → Slots α) (old : Option (Node α)) :
    (passThrough flags below old).flags = (old.map Node.flags).getD 0 ||| (flags &&& Config.intermediateFlagMask) := by
  cases old <;> rfl

/-- The slots of a node after the intermediate step, a missing node having none. -/
theorem slotGet_passThrough {α : Type} (flags : Word) (i j : Index) (f : Option α → α) (old : Option (Node α)) :
    slotGet (passThrough flags (fun xs => slotUpdate xs i f) old).slots j =
      if j = i then some (f (old.bind fun n => slotGet n.slots i)) else old.bind fun n => slotGet n.slots j := by
  cases old <;> exact slotGet_slotUpdate _ i j f

/-- One level of the flat view: the child at slot `j` of what the level above holds, where the level above was stepped
if `p` holds and left alone otherwise. -/
theorem bind_slotGet_passThrough {α : Type} {p : Prop} [Decidable p] (flags : Word) (i j : Index) (f : Option α → α)
    (old : Option (Node α)) :
    ((if p then some (passThrough flags (fun xs => slotUpdate xs i f) old) else old).bind fun n => slotGet n.slots j) =
      if p ∧ j = i then some (f (old.bind fun n => slotGet n.slots j)) else old.bind fun n => slotGet n.slots j := by
  by_cases hp : p
  · rw [if_pos hp, Option.bind_some, slotGet_passThrough]
    by_cases hj : j = i
    · subst hj; simp [hp]
    · simp [hj]
  · simp [hp]

/-! ## The four levels of the path -/

section
variable (r : Root) (va pa f : Word)

theorem pdptAt_insertTree (i4 : Index) : pdptAt (insertTree r va pa f) i4 =
    if i4 = idx4 va then some (pdptStep va pa f (pdptAt r i4)) else pdptAt r i4 := by
  unfold pdptAt
  rw [insertTree_slots, slotGet_slotUpdate]
  split
  · next h => rw [h]
  · rfl

theorem pdAt_insertTree (i4 i3 : Index) : pdAt (insertTree r va pa f) i4 i3 =
    if i4 = idx4 va ∧ i3 = idx3 va then some (pdStep va pa f (pdAt r i4 i3)) else pdAt r i4 i3 := by
  unfold pdAt
  rw [pdptAt_insertTree]
  exact bind_slotGet_passThrough f (idx3 va) i3 (pdStep va pa f) (pdptAt r i4)

theorem ptAt_insertTree (i4 i3 i2 : Index) : ptAt (insertTree r va pa f) i4 i3 i2 =
    if (i4 = idx4 va ∧ i3 = idx3 va) ∧ i2 = idx2 va then some (ptStep va pa f (ptAt r i4 i3 i2))
    else ptAt r i4 i3 i2 := by
  unfold ptAt
  rw [pdAt_insertTree]
  exact bind_slotGet_passThrough f (idx2 va) i2 (ptStep va pa f) (pdAt r i4 i3)

theorem leafAt_insertTree (i4 i3 i2 i1 : Index) : leafAt (insertTree r va pa f) i4 i3 i2 i1 =
    if ((i4 = idx4 va ∧ i3 = idx3 va) ∧ i2 = idx2 va) ∧ i1 = idx1 va
    then some (leafStep pa f (leafAt r i4 i3 i2 i1)) else leafAt r i4 i3 i2 i1 := by
  unfold leafAt
  rw [ptAt_insertTree]
  exact bind_slotGet_passThrough f (idx1 va) i1 (leafStep pa f) (ptAt r i4 i3 i2)

/-- An INSERT does to the flat view of the tree what R93 to R95 and R99 say, and nothing else. -/
theorem insertedInto_insertTree : insertedInto va pa f r (insertTree r va pa f) := by
  refine ⟨fun i4 => ?_, fun i4 i3 => ?_, fun i4 i3 i2 => ?_, fun i4 i3 i2 i1 => ?_⟩
  · rw [pdptFlags, pdptAt_insertTree, apply_ite (Option.map Node.flags), Option.map_some, pdptStep, passThrough_flags]
    rfl
  · rw [pdFlags, pdAt_insertTree, apply_ite (Option.map Node.flags), Option.map_some, pdStep, passThrough_flags]
    rfl
  · rw [ptFlags, ptAt_insertTree, apply_ite (Option.map Node.flags), Option.map_some, ptStep, passThrough_flags]
    simp only [and_assoc]
    rfl
  · rw [leafAt_insertTree]
    simp only [and_assoc]
    rfl

end

/-! ## Histories (R16 items 2 to 5) -/

theorem builtBy_nil_empty : builtBy [] Root.empty :=
  ⟨fun _ => rfl, fun _ _ => rfl, fun _ _ _ => rfl, fun _ _ _ _ => rfl, fun _ _ _ _ => rfl⟩

theorem viaPdpt_iff {i4 : Index} {x : InsertOp} : viaPdpt i4 x = true ↔ i4 = idx4 x.vaddr := by
  rw [viaPdpt, beq_iff_eq]
  exact eq_comm

theorem viaPd_iff {i4 i3 : Index} {x : InsertOp} :
    viaPd i4 i3 x = true ↔ i4 = idx4 x.vaddr ∧ i3 = idx3 x.vaddr := by
  rw [viaPd, Bool.and_eq_true, viaPdpt_iff, beq_iff_eq, @eq_comm _ i3]

theorem viaPt_iff {i4 i3 i2 : Index} {x : InsertOp} :
    viaPt i4 i3 i2 x = true ↔ i4 = idx4 x.vaddr ∧ i3 = idx3 x.vaddr ∧ i2 = idx2 x.vaddr := by
  rw [viaPt, Bool.and_eq_true, viaPd_iff, beq_iff_eq, @eq_comm _ i2, and_assoc]

theorem viaLeaf_iff {i4 i3 i2 i1 : Index} {x : InsertOp} : viaLeaf i4 i3 i2 i1 x = true ↔
    i4 = idx4 x.vaddr ∧ i3 = idx3 x.vaddr ∧ i2 = idx2 x.vaddr ∧ i1 = idx1 x.vaddr := by
  rw [viaLeaf, Bool.and_eq_true, viaPt_iff, beq_iff_eq, @eq_comm _ i1, and_assoc, and_assoc]

/-- One more INSERT, in the flat view, is one more INSERT in the history. -/
theorem builtBy_append {xs : List InsertOp} {r q : Root} (x : InsertOp) (h : builtBy xs r)
    (hq : insertedInto x.vaddr x.paddr x.flags r q) : builtBy (xs ++ [x]) q := by
  obtain ⟨hpdpt, hpd, hpt, hleaf, haddr⟩ := h
  obtain ⟨qpdpt, qpd, qpt, qleaf⟩ := hq
  refine ⟨fun i4 => ?_, fun i4 i3 => ?_, fun i4 i3 i2 => ?_, fun i4 i3 i2 i1 => ?_, fun i4 i3 i2 i1 => ?_⟩
  · simp only [qpdpt, unionOf_append_one, viaPdpt_iff, hpdpt]
  · simp only [qpd, unionOf_append_one, viaPd_iff, hpd]
  · simp only [qpt, unionOf_append_one, viaPt_iff, hpt]
  · have hold : (leafAt r i4 i3 i2 i1).map Leaf.flags = _ := hleaf i4 i3 i2 i1
    rw [leafFlags, qleaf, unionOf_append_one]
    simp only [viaLeaf_iff, apply_ite (Option.map Leaf.flags), Option.map_some, hleaf, hold]
  · simp only [qleaf, lastAddr_append_one, viaLeaf_iff, apply_ite (Option.map Leaf.addr), Option.map_some, haddr]
    rfl

/-- The INSERTs that have built the tree after a command, if `xs` have built it before. -/
def commandHistory : Instr → Phase → List InsertOp → List InsertOp
  | .insert va pa f, .buildable, xs => xs ++ [⟨va, pa, f⟩]
  | .commit, .buildable, _ => []
  | _, _, xs => xs

theorem commandHistory_consumed (i : Instr) (xs : List InsertOp) : commandHistory i .consumed xs = xs := by
  cases i <;> rfl

theorem arrival_command {s : State} {w : CmdWord} {a : Alloc} {rest : List Input}
    (h : s.inputs = .command w a :: rest) : arrival s = .command (decode w) a rest := by
  rw [arrival, h]

theorem historyAfter_idle {s : State} (h : s.inputs = []) (xs : List InsertOp) : historyAfter s xs = xs := by
  simp [historyAfter, arrival, h]

theorem historyAfter_reset {s : State} {rest : List Input} (h : s.inputs = .reset :: rest) (xs : List InsertOp) :
    historyAfter s xs = [] := by
  simp [historyAfter, arrival, h]

theorem historyAfter_command {s : State} {w : CmdWord} {a : Alloc} {rest : List Input}
    (h : s.inputs = .command w a :: rest) (xs : List InsertOp) :
    historyAfter s xs = commandHistory (decode w) s.phase xs := by
  rw [historyAfter, arrival_command h]
  cases decode w <;> cases s.phase <;> rfl

/-- Every operation advances the history of the tree as `commandHistory` says. -/
theorem builtBy_exec {xs : List InsertOp} {i : Instr} {s t : State} (hs : builtBy xs s.root)
    (h : exec i s = .next t) : builtBy (commandHistory i s.phase xs) t.root := by
  cases exec_effect h with
  | index va => exact hs
  | refusedConsumed i hop hp => rw [hp, commandHistory_consumed]; exact hs
  | insert va pa f hp => rw [hp]; exact builtBy_append ⟨va, pa, f⟩ hs (insertedInto_insertTree s.root va pa f)
  | translate va prot hp => exact hs
  | commitFails k hp hc => rw [hp]; exact builtBy_nil_empty
  | commitSucceeds rootPa c hp hc => rw [hp]; exact builtBy_nil_empty

/-- Settles O50: an INSERT in the flat view is `insertedInto`, which is one more INSERT in the history; reset and COMMIT
leave the empty tree, and nothing else touches the tree. -/
theorem everyStepKeepsTheHistory : Obligations.EveryStepKeepsTheHistory := by
  intro xs s t hs h
  rcases step_cases h with ⟨hi, rfl⟩ | ⟨rest, hi, rfl⟩ | ⟨w, a, rest, hi, h⟩
  · rw [historyAfter_idle hi]; exact hs
  · rw [historyAfter_reset hi]; exact builtBy_nil_empty
  · rw [historyAfter_command hi]; exact builtBy_exec (s := accept s a rest) hs h

/-- Settles O49. -/
theorem historyAtReset : Obligations.HistoryAtReset := builtBy_nil_empty

/-! ## A sequence of INSERT commands -/

/-- The bits of a command word, field by field (R66). -/
theorem getLsbD_packCmd (op : BitVec 2) (prot : Prot) (va pa fl : Word) (k : Nat) :
    (packCmd op prot va pa fl).getLsbD k =
      if k < 2 then op.getLsbD k
      else if k < 5 then prot.getLsbD (k - 2)
      else if k < 69 then va.getLsbD (k - 5)
      else if k < 133 then pa.getLsbD (k - 69)
      else fl.getLsbD (k - 133) := by
  unfold packCmd
  simp only [BitVec.getLsbD_append, Nat.sub_sub]
  grind

/-- A 64-bit field of a command word, from its bits. -/
theorem extractLsb'_eq_of_bits {n : Nat} {w : CmdWord} {v : Word}
    (h : ∀ k < 64, w.getLsbD (n + k) = v.getLsbD k) : w.extractLsb' n 64 = v :=
  BitVec.eq_of_getLsbD_eq fun k hk => by simp [hk, h k hk]

section
variable (op : BitVec 2) (prot : Prot) (va pa fl : Word)

theorem vaddrField_packCmd : vaddrField (packCmd op prot va pa fl) = va :=
  extractLsb'_eq_of_bits fun k _ => by
    rw [getLsbD_packCmd, if_neg, if_neg, if_pos, Nat.add_sub_cancel_left] <;> omega

theorem paddrField_packCmd : paddrField (packCmd op prot va pa fl) = pa :=
  extractLsb'_eq_of_bits fun k _ => by
    rw [getLsbD_packCmd, if_neg, if_neg, if_neg, if_pos, Nat.add_sub_cancel_left] <;> omega

theorem flagsField_packCmd : flagsField (packCmd op prot va pa fl) = fl :=
  extractLsb'_eq_of_bits fun k _ => by
    rw [getLsbD_packCmd, if_neg, if_neg, if_neg, if_neg, Nat.add_sub_cancel_left] <;> omega

end

/-- Decoding an encoded INSERT gives it back (R66, R67, R73). -/
theorem decode_encode_insert (va pa f : Word) : decode (encode (.insert va pa f)) = .insert va pa f := by
  have hop : opField (encode (.insert va pa f)) = 0b01#2 := Laws.OpSelect.insert va pa f
  rw [decode, hop, if_neg (by decide), if_pos rfl, encode, vaddrField_packCmd, paddrField_packCmd,
    flagsField_packCmd]

/-- The tree after the INSERTs `xs`, one after another. -/
def insertAll (r : Root) (xs : List InsertOp) : Root :=
  xs.foldl (fun q x => insertTree q x.vaddr x.paddr x.flags) r

/-- R16 items 2 to 5 for a tree with a history and a sequence of INSERTs into it. -/
theorem builtBy_insertAll {done : List InsertOp} {r : Root} (xs : List InsertOp) (h : builtBy done r) :
    builtBy (done ++ xs) (insertAll r xs) := by
  induction xs generalizing done r with
  | nil => simpa [insertAll] using h
  | cons x xs ih =>
    have hx : builtBy (done ++ [x]) (insertTree r x.vaddr x.paddr x.flags) :=
      builtBy_append x h (insertedInto_insertTree r x.vaddr x.paddr x.flags)
    simpa [insertAll] using ih hx

/-- One INSERT command from the host in phase BUILDABLE. -/
theorem step_insertMove {s : State} {a : Alloc} {x : InsertOp} {rest : List Input} (hp : s.phase = .buildable)
    (hi : s.inputs = insertMove a x :: rest) :
    step s = .next (respond (setRoot (accept s a rest) (insertTree s.root x.vaddr x.paddr x.flags)) .insertOk) := by
  have harrival : arrival s = .command (.insert x.vaddr x.paddr x.flags) a rest := by
    rw [arrival_command hi, decode_encode_insert]
  have hrun := treeCommand_buildable (s := accept s a rest) hp
    fun s => .next (respond (setRoot s (insertTree s.root x.vaddr x.paddr x.flags)) .insertOk)
  rw [step, harrival]
  exact hrun

theorem run_succ_of_step {s u : State} (n : Nat) (h : step s = .next u) :
    core.run (n + 1) s = core.run n u := by
  have hcore : core.step s = .next u := h
  simp only [Host.Core.run, hcore]

/-- INSERT commands issued one after another in phase BUILDABLE all run, and make `insertAll` of the tree. -/
theorem run_insertMoves (a : Alloc) (xs : List InsertOp) {s : State} (hp : s.phase = .buildable)
    (hi : s.inputs = xs.map (insertMove a)) :
    ∃ t : State, core.run xs.length s = .next t ∧ t.phase = .buildable ∧ t.root = insertAll s.root xs := by
  induction xs generalizing s with
  | nil => exact ⟨s, rfl, hp, rfl⟩
  | cons x xs ih =>
    have hstep := step_insertMove hp hi
    rw [List.length_cons, run_succ_of_step _ hstep]
    exact ih hp rfl

/-- Settles O7: the run ends with `insertAll` of the empty tree, which its history describes. -/
theorem treeIsTheUnionOfItsInserts : Obligations.TreeIsTheUnionOfItsInserts := by
  intro a xs s hp hr hi
  obtain ⟨t, hrun, ht, hroot⟩ := run_insertMoves a xs hp hi
  refine ⟨t, hrun, ht, ?_⟩
  rw [hroot, hr]
  exact builtBy_insertAll xs builtBy_nil_empty

end Sys2Proof.Machine

/-! SUPPORT. The memory operations of the family 20_memory.md: what a store changes in an image, who asks the allocator,
what a TRANSLATE answers, and the command a step runs. -/

namespace Sys2Proof.Machine

/-! ## A 64-bit store into an image (R33) -/

/-- A store adds no page to the image and takes none away. -/
@[simp] theorem inImage_imageWrite64 (im : Image) (pa w : Word) (a : Nat) :
    inImage (imageWrite64 im pa w) a = inImage im a := rfl

/-- What a holder of the image reads after a store: a byte of the stored word where the store reaches a page of the image,
the old byte where it does not reach, and nothing where the image has no page. -/
theorem imageByte_imageWrite64 {im : Image} (h : Memory.wf im.bytes) (pa w : Word) (a : Nat) :
    imageByte (imageWrite64 im pa w) a =
      if pa.toNat ≤ a ∧ a < pa.toNat + 8 then (imageByte im a).map fun _ => byteOf w (a - pa.toNat)
      else imageByte im a := by
  have hread : memRead (imageWrite64 im pa w).bytes a =
      if pa.toNat ≤ a ∧ a < pa.toNat + 8 then byteOf w (a - pa.toNat) else memRead im.bytes a :=
    memRead_memWrite64 h pa w a
  simp only [imageByte, inImage_imageWrite64, hread]
  by_cases hreach : pa.toNat ≤ a ∧ a < pa.toNat + 8
  · rw [if_pos hreach, if_pos hreach]
    cases inImage im a <;> rfl
  · rw [if_neg hreach, if_neg hreach]

/-- Settles O28: `imageByte_imageWrite64`, with `byteOf w k` the bits `w[8k+7 : 8k]`. -/
theorem storesAreLittleEndian : Obligations.StoresAreLittleEndian :=
  fun _ pa w h a => imageByte_imageWrite64 h pa w a

/-! ## Requests to the allocator (R38, R103) -/

/-- Settles O34: of the rows of the outcome table only the two of a COMMIT in phase BUILDABLE count requests. -/
theorem onlyCommitAsksTheAllocator : Obligations.OnlyCommitAsksTheAllocator := by
  intro i s t h hne
  cases exec_effect h with
  | index | refusedConsumed | insert | translate => exact absurd rfl hne
  | commitFails k hp | commitSucceeds rootPa c hp => exact ⟨rfl, hp⟩

/-! ## TRANSLATE (R41) -/

/-- The response to a TRANSLATE, in either phase. -/
def translateAnswer (ph : Phase) (r : Root) (va : Word) (prot : Prot) : Response :=
  match ph with
  | .consumed => .consumed
  | .buildable => translateResponse r va prot

/-- A TRANSLATE gives its response, which the phase and the tree decide, and does nothing else (R111). -/
theorem exec_translate (va : Word) (prot : Prot) (s : State) :
    exec (.translate va prot) s = .next (respond s (translateAnswer s.phase s.root va prot)) := by
  have htree : exec (.translate va prot) s =
      treeCommand s fun s => .next (respond s (translateResponse s.root va prot)) := rfl
  rw [htree]
  cases hp : s.phase with
  | consumed => rw [treeCommand_consumed hp]; rfl
  | buildable => rw [treeCommand_buildable hp]; rfl

/-- Settles O16: giving a response leaves the phase and the tree alone, so by `exec_translate` each of the two answers is
the same whichever comes first. -/
theorem translatesCommute : Obligations.TranslatesCommute := by
  intro v w p q s t u t' u' ht hu ht' hu'
  rw [exec_translate] at ht hu ht' hu'
  cases ht
  cases hu
  cases ht'
  cases hu'
  exact ⟨translateAnswer s.phase s.root v p, translateAnswer s.phase s.root w q, rfl, rfl⟩

/-! ## The command a step runs (R40, R66) -/

/-- No operand value is illegal (R69). -/
theorem wf_eq_true (i : Instr) : i.wf = true := by
  cases i <;> rfl

theorem step_command {s : State} {w : CmdWord} {a : Alloc} {rest : List Input}
    (h : s.inputs = .command w a :: rest) : step s = exec (decode w) (accept s a rest) := by
  rw [step, arrival_command h]

/-- Settles O38. -/
theorem stepRunsTheDecodedCommand : Obligations.StepRunsTheDecodedCommand :=
  fun _ _ _ _ h => ⟨wf_eq_true _, step_command h⟩

end Sys2Proof.Machine

/-! SUPPORT. The encoding of the family 30_encoding.md: what the decoder makes of a word and of an encoded instruction. -/

namespace Sys2Proof.Machine

/-! ## The decoder, row by row of the opcode table (R67) -/

theorem decode_index {w : CmdWord} (h : opField w = 0b00#2) : decode w = .index (vaddrField w) := by
  rw [decode, if_pos h]

theorem decode_insert {w : CmdWord} (h : opField w = 0b01#2) :
    decode w = .insert (vaddrField w) (paddrField w) (flagsField w) := by
  rw [decode, if_neg (by rw [h]; decide), if_pos h]

theorem decode_translate {w : CmdWord} (h : opField w = 0b10#2) :
    decode w = .translate (vaddrField w) (protField w) := by
  rw [decode, if_neg (by rw [h]; decide), if_neg (by rw [h]; decide), if_pos h]

theorem decode_commit {w : CmdWord} (h : opField w = 0b11#2) : decode w = .commit := by
  rw [decode, if_neg (by rw [h]; decide), if_neg (by rw [h]; decide), if_neg (by rw [h]; decide)]

/-- The four values of an `op` field, all of them assigned (R67). -/
theorem op_cases : ∀ op : BitVec 2, op = 0b00#2 ∨ op = 0b01#2 ∨ op = 0b10#2 ∨ op = 0b11#2 := by decide

theorem opOf_decode (w : CmdWord) : opOf (decode w) = opField w := by
  rcases op_cases (opField w) with h | h | h | h
  · rw [decode_index h, h]; rfl
  · rw [decode_insert h, h]; rfl
  · rw [decode_translate h, h]; rfl
  · rw [decode_commit h, h]; rfl

/-! ## The decoder on an encoded instruction (R73) -/

theorem protField_packCmd (op : BitVec 2) (prot : Prot) (va pa fl : Word) :
    protField (packCmd op prot va pa fl) = prot :=
  BitVec.eq_of_getLsbD_eq fun k hk => by
    rw [protField, BitVec.getLsbD_extractLsb', getLsbD_packCmd, if_neg (by omega), if_pos (by omega),
      Nat.add_sub_cancel_left]
    simp [hk]

/-- Settles O45: the `op` field of the encoded word selects the row it was encoded by, and every field that row reads
holds the operand written there. -/
theorem decodeInvertsEncode : Obligations.DecodeInvertsEncode := by
  intro i _
  cases i with
  | index va => rw [decode_index (Laws.OpSelect.index va), encode, vaddrField_packCmd]
  | insert va pa f => exact decode_encode_insert va pa f
  | translate va prot =>
    rw [decode_translate (Laws.OpSelect.translate va prot), encode, vaddrField_packCmd, protField_packCmd]
  | commit => exact decode_commit Laws.OpSelect.commit

/-- Settles O46. -/
theorem everyWordDecodesByItsOpField : Obligations.EveryWordDecodesByItsOpField :=
  fun w => ⟨opOf_decode w, wf_eq_true _⟩

/-- Settles O48: three fixed words, each evaluated in both directions. -/
theorem workedEncodings : Obligations.WorkedEncodings := by
  unfold Obligations.WorkedEncodings
  decide

end Sys2Proof.Machine

/-! SUPPORT. Which bits of an operand each operation reads (R68). -/

namespace Sys2Proof.Machine

/-! ## Ranges of bits of an operand -/

/-- Words that agree on a range of bits agree on each bit of it. -/
theorem getLsbD_eq_of_range {n a len k : Nat} {v w : BitVec n} (h : v.extractLsb' a len = w.extractLsb' a len)
    (hlo : a ≤ k) (hhi : k < a + len) : v.getLsbD k = w.getLsbD k := by
  have hbit := congrArg (BitVec.getLsbD · (k - a)) h
  have hin : k - a < len := by omega
  simpa [hin, Nat.add_sub_cancel' hlo] using hbit

/-- Words that agree on a range of bits agree on every range inside it. -/
theorem extractLsb'_eq_of_range {n a len b m : Nat} {v w : BitVec n} (h : v.extractLsb' a len = w.extractLsb' a len)
    (hlo : a ≤ b) (hhi : b + m ≤ a + len) : v.extractLsb' b m = w.extractLsb' b m :=
  BitVec.eq_of_getLsbD_eq fun k hk => by
    rw [BitVec.getLsbD_extractLsb', BitVec.getLsbD_extractLsb',
      getLsbD_eq_of_range (k := b + k) h (by omega) (by omega)]

/-- The mask of the index functions (R80 to R83) keeps nine bits. -/
theorem getLsbD_indexMask : ∀ k < 9, (0x1FF#64).getLsbD k = true := by decide

/-- The mask of the offset function (R84) keeps twelve bits. -/
theorem getLsbD_offsetMask : ∀ k < 12, (0xFFF#64).getLsbD k = true := by decide

/-- What a leaf keeps of a physical address (R51): all but the low twelve bits. -/
theorem getLsbD_paStoreMask : ∀ k < 64, Config.paStoreMask.getLsbD k = decide (12 ≤ k) := by decide

/-- Shifting and masking, as the index functions do (R80 to R83), takes a range of nine bits. -/
theorem shift_mask_eq_extractLsb' (va : Word) (n : Nat) :
    ((va >>> n) &&& 0x1FF#64).setWidth 9 = va.extractLsb' n 9 :=
  BitVec.eq_of_getLsbD_eq fun k hk => by
    rw [BitVec.getLsbD_setWidth, BitVec.getLsbD_and, getLsbD_indexMask k hk]
    simp [hk]

theorem off_eq_extractLsb' (va : Word) : off va = va.extractLsb' 0 12 :=
  BitVec.eq_of_getLsbD_eq fun k hk => by
    rw [off, BitVec.getLsbD_setWidth, BitVec.getLsbD_and, getLsbD_offsetMask k hk]
    simp [hk]

/-- The four indices read bits 12 to 47 and no other (R80 to R83). -/
theorem samePath_of_bits {v w : Word} (h : v.extractLsb' 12 36 = w.extractLsb' 12 36) : samePath v w := by
  have hindex : ∀ n, 12 ≤ n → n + 9 ≤ 48 →
      ((v >>> n) &&& 0x1FF#64).setWidth 9 = ((w >>> n) &&& 0x1FF#64).setWidth 9 := fun n hlo hhi => by
    rw [shift_mask_eq_extractLsb', shift_mask_eq_extractLsb', extractLsb'_eq_of_range h hlo hhi]
  exact ⟨hindex 39 (by omega) (by omega), hindex 30 (by omega) (by omega), hindex 21 (by omega) (by omega),
    hindex 12 (by omega) (by omega)⟩

/-- A leaf's address reads bits 12 to 63 of the physical-address operand and no other (R51). -/
theorem storedAddr_eq_of_bits {p q : Word} (h : p.extractLsb' 12 52 = q.extractLsb' 12 52) :
    storedAddr p = storedAddr q := by
  refine BitVec.eq_of_getLsbD_eq fun k hk => ?_
  rw [storedAddr, storedAddr, BitVec.getLsbD_and, BitVec.getLsbD_and, getLsbD_paStoreMask k hk]
  by_cases hlo : 12 ≤ k
  · rw [getLsbD_eq_of_range h hlo hk]
  · simp [hlo]

/-! ## What INSERT reads of its operands -/

/-- An intermediate node reads of the flag operand what it keeps of it (R57, R93). -/
theorem passThrough_congr {α : Type} {f g : Word} (h : truncI f = truncI g) :
    passThrough (α := α) f = passThrough g := by
  funext below old
  rw [passThrough, passThrough, h]

/-- A leaf reads of the address and flag operands what it keeps of them (R57, R95). -/
theorem leafStep_congr {p q f g : Word} (hp : storedAddr p = storedAddr q) (hf : truncL f = truncL g) :
    leafStep p f = leafStep q g := by
  funext old
  rw [leafStep, leafStep, hp, hf]

/-- INSERTs to the same path with operands of which the same is kept make the same tree. -/
theorem insertTree_congr (r : Root) {v w p q f g : Word} (hpath : samePath v w) (hp : storedAddr p = storedAddr q)
    (hI : truncI f = truncI g) (hL : truncL f = truncL g) : insertTree r v p f = insertTree r w q g := by
  obtain ⟨h4, h3, h2, h1⟩ := hpath
  simp only [insertTree, h4, h3, h2, h1, passThrough_congr hI, leafStep_congr hp hL]

/-- An INSERT in phase BUILDABLE replaces the tree (R90, R163). -/
theorem exec_insert (va pa f : Word) (s : State) : exec (.insert va pa f) s =
    treeCommand s fun s => .next (respond (setRoot s (insertTree s.root va pa f)) .insertOk) := rfl

theorem exec_insert_congr (s : State) {v w p q f g : Word} (hpath : samePath v w) (hp : storedAddr p = storedAddr q)
    (hI : truncI f = truncI g) (hL : truncL f = truncL g) :
    exec (.insert v p f) s = exec (.insert w q g) s := by
  simp only [exec_insert, insertTree_congr _ hpath hp hI hL]

/-! ## What TRANSLATE reads of its operands -/

/-- The per-level check reads the Write and Execute bits of a request and no other (R64, R65). -/
theorem allow_congr {p q : Prot} (hw : p.getLsbD 1 = q.getLsbD 1) (hx : p.getLsbD 2 = q.getLsbD 2) (f : Flags) :
    allow f p = allow f q :=
  Bool.eq_iff_iff.2 (by rw [allow_iff, allow_iff, hw, hx])

theorem walk_congr (r : Root) {v w : Word} {p q : Prot} (hpath : samePath v w) (hallow : ∀ f, allow f p = allow f q) :
    walk r v p = walk r w q := by
  obtain ⟨h4, h3, h2, h1⟩ := hpath
  exact Option.ext fun l => by simp only [walk_eq_some, h4, h3, h2, h1, hallow]

/-- TRANSLATEs of the same path and offset, with requests that every flag set answers alike, answer alike. -/
theorem exec_translate_congr (s : State) {v w : Word} {p q : Prot} (hpath : samePath v w) (hoff : off v = off w)
    (hallow : ∀ f, allow f p = allow f q) : exec (.translate v p) s = exec (.translate w q) s := by
  have hresponse : translateResponse s.root v p = translateResponse s.root w q := by
    simp only [translateResponse, walk_congr s.root hpath hallow, resultAddr, hoff]
  rw [exec_translate, exec_translate]
  cases s.phase with
  | consumed => rfl
  | buildable => rw [translateAnswer, translateAnswer, hresponse]

theorem samePath_refl (v : Word) : samePath v v := ⟨rfl, rfl, rfl, rfl⟩

/-- Settles O12: setting bit 0 of a request leaves the two bits that `allow` reads. -/
theorem readBitSelectsNoCheck : Obligations.ReadBitSelectsNoCheck := by
  intro va prot s
  have hwrite : (prot ||| 1#3).getLsbD 1 = prot.getLsbD 1 := by simp
  have hexecute : (prot ||| 1#3).getLsbD 2 = prot.getLsbD 2 := by simp
  exact exec_translate_congr s (samePath_refl va) rfl (allow_congr hwrite hexecute)

/-! ## What a command word acts by (R68) -/

/-- Settles O47, one clause for each row of the opcode table. -/
theorem unusedOperandBitsHaveNoEffect : Obligations.UnusedOperandBitsHaveNoEffect := by
  intro w w' s hop
  refine ⟨fun h hva => ?index, fun h hva hpa hI hL => ?insert, fun h hva hprot => ?translate, fun h => ?commit⟩
  case index => rw [decode_index h, decode_index (hop.trans h), hva]
  case insert =>
    rw [decode_insert h, decode_insert (hop.trans h)]
    exact exec_insert_congr s (samePath_of_bits hva) (storedAddr_eq_of_bits hpa) hI hL
  case translate =>
    have hpath := samePath_of_bits (extractLsb'_eq_of_range hva (b := 12) (m := 36) (by omega) (by omega))
    have hoff : off (vaddrField w') = off (vaddrField w) := by
      rw [off_eq_extractLsb', off_eq_extractLsb', extractLsb'_eq_of_range hva (by omega) (by omega)]
    have hwrite := getLsbD_eq_of_range hprot (k := 1) (by omega) (by omega)
    have hexecute := getLsbD_eq_of_range hprot (k := 2) (by omega) (by omega)
    rw [decode_translate h, decode_translate (hop.trans h)]
    exact exec_translate_congr s hpath hoff (allow_congr hwrite hexecute)
  case commit => rw [decode_commit h, decode_commit (hop.trans h)]

end Sys2Proof.Machine

/-! SUPPORT. Which bits an entry word of a well-formed tree can have (R58, R61). -/

namespace Sys2Proof.Machine

/-! ## The nodes and leaves at the paths of a well-formed tree -/

theorem flags_sub_of_nodeOk {α : Type} {childOk : α → Bool} {childFlags : α → Flags} {n : Node α}
    (h : nodeOk childOk childFlags n = true) : subFlags n.flags Config.intermediateFlagMask = true :=
  (nodeOk_iff.1 h).1

/-- One level of the flat view: a child of a well-formed node is well-formed. -/
theorem childOk_of_bind {α : Type} {childOk : α → Bool} {childFlags : α → Flags} {o : Option (Node α)} {i : Index}
    {c : α} (h : ∀ n, o = some n → nodeOk childOk childFlags n = true)
    (hc : (o.bind fun n => slotGet n.slots i) = some c) : childOk c = true := by
  obtain ⟨n, hn, hslot⟩ := Option.bind_eq_some_iff.1 hc
  exact nodeOk_child (h n hn) (mem_of_slotGet hslot)

section
variable {r : Root} {i4 i3 i2 i1 : Index}

theorem pdptOk_of_pdptAt (h : rootOk r = true) {n : PdptNode} (hn : pdptAt r i4 = some n) : pdptOk n = true :=
  (rootOk_iff.1 h).2 _ (mem_of_slotGet hn)

theorem pdOk_of_pdAt (h : rootOk r = true) {n : PdNode} (hn : pdAt r i4 i3 = some n) : pdOk n = true :=
  childOk_of_bind (fun _ => pdptOk_of_pdptAt h) hn

theorem ptOk_of_ptAt (h : rootOk r = true) {n : PtNode} (hn : ptAt r i4 i3 i2 = some n) : ptOk n = true :=
  childOk_of_bind (fun _ => pdOk_of_pdAt h) hn

theorem leafOk_of_leafAt (h : rootOk r = true) {l : Leaf} (hl : leafAt r i4 i3 i2 i1 = some l) : leafOk l = true :=
  childOk_of_bind (fun _ => ptOk_of_ptAt h) hl

theorem pdptFlags_sub (h : rootOk r = true) {f : Flags} (hf : pdptFlags r i4 = some f) :
    subFlags f Config.intermediateFlagMask = true := by
  obtain ⟨n, hn, rfl⟩ := Option.map_eq_some_iff.1 hf
  exact flags_sub_of_nodeOk (pdptOk_of_pdptAt h hn)

theorem pdFlags_sub (h : rootOk r = true) {f : Flags} (hf : pdFlags r i4 i3 = some f) :
    subFlags f Config.intermediateFlagMask = true := by
  obtain ⟨n, hn, rfl⟩ := Option.map_eq_some_iff.1 hf
  exact flags_sub_of_nodeOk (pdOk_of_pdAt h hn)

theorem ptFlags_sub (h : rootOk r = true) {f : Flags} (hf : ptFlags r i4 i3 i2 = some f) :
    subFlags f Config.intermediateFlagMask = true := by
  obtain ⟨n, hn, rfl⟩ := Option.map_eq_some_iff.1 hf
  exact flags_sub_of_nodeOk (ptOk_of_ptAt h hn)

end

/-! ## The bits of an entry word -/

/-- The flag mask of the entry words in the page of the node at a path: that of a leaf in a PT node's page, that of
an intermediate node in every other (R54, R55, R137, R138). -/
def entryFlagMask (p : List Index) : Word :=
  if p.length < 3 then Config.intermediateFlagMask else Config.leafFlagMask

/-- A page's address has no bit outside the address mask: it is a multiple of 4096 (R133). -/
theorem pageOf_sub (r : Root) (p : List Index) : subFlags (pageOf r p) Config.paStoreMask = true :=
  subFlags_iff.2 fun k hbit => by
    have hk : k < 64 := BitVec.lt_of_getLsbD hbit
    rw [pageOf, BitVec.getLsbD_ofNat, show 4096 = 2 ^ 12 from rfl, Nat.testBit_two_pow_mul, Bool.and_eq_true,
      Bool.and_eq_true] at hbit
    obtain ⟨-, hlo, -⟩ := hbit
    rw [getLsbD_paStoreMask k hk]
    exact hlo

/-- An address OR flags, each within its mask, is within the two masks together. -/
theorem or_sub {a f m n : Word} (ha : subFlags a m = true) (hf : subFlags f n = true) :
    subFlags (a ||| f) (m ||| n) = true :=
  subFlags_union (subFlags_union_left n ha) (subFlags_trans hf (subFlags_union_right m n))

/-- Every entry word of a well-formed tree keeps to the address bits and the flag mask of its page's level. -/
theorem expectedWord_sub {r : Root} (h : rootOk r = true) (p : List Index) (i : Index) :
    subFlags (expectedWord r p i) (Config.paStoreMask ||| entryFlagMask p) = true := by
  unfold expectedWord
  split
  · split
    · exact subFlags_zero _
    · next f hf => exact or_sub (pageOf_sub r _) (pdptFlags_sub h hf)
  · split
    · exact subFlags_zero _
    · next f hf => exact or_sub (pageOf_sub r _) (pdFlags_sub h hf)
  · split
    · exact subFlags_zero _
    · next f hf => exact or_sub (pageOf_sub r _) (ptFlags_sub h hf)
  · split
    · exact subFlags_zero _
    · next l hl =>
      obtain ⟨haddr, hflags⟩ := leafOk_iff.1 (leafOk_of_leafAt h hl)
      exact or_sub (beq_iff_eq.2 haddr) hflags
  · exact subFlags_zero _

/-- A bit that the mask lacks is 0. -/
theorem getLsbD_eq_false_of_sub {f m : Word} (h : subFlags f m = true) {k : Nat} (hk : m.getLsbD k = false) :
    f.getLsbD k = false :=
  Bool.eq_false_iff.2 fun hf => by simp [subFlags_iff.1 h k hf] at hk

/-- Neither flag mask has a bit in 11:9, and neither does the address mask (R51, R54, R55). -/
theorem entryMask_bits_9_to_11 (p : List Index) :
    ∀ k < 3, (Config.paStoreMask ||| entryFlagMask p).getLsbD (9 + k) = false := by
  unfold entryFlagMask
  split <;> decide

/-- Settles O23: an entry word keeps to the address mask and its level's flag mask (`expectedWord_sub`), which lack the
bits in question. -/
theorem entryWordsLeaveUnnamedFlagBitsZero : Obligations.EntryWordsLeaveUnnamedFlagBitsZero := by
  intro s hs p i
  have hsub := expectedWord_sub (stateOk_iff.1 hs).1 p i
  refine ⟨BitVec.eq_of_getLsbD_eq fun k hk => ?_, fun hp => ?_⟩
  · simp [hk, getLsbD_eq_false_of_sub hsub (entryMask_bits_9_to_11 p k hk)]
  · have hmask : entryFlagMask p = Config.intermediateFlagMask := if_pos hp
    rw [hmask] at hsub
    exact ⟨getLsbD_eq_false_of_sub hsub (by decide), getLsbD_eq_false_of_sub hsub (by decide)⟩

end Sys2Proof.Machine

/-! SUPPORT. The index functions of the family 40_index.md (R80 to R88): the bits each of them takes, and the bits the
five of them rebuild. -/

namespace Sys2Proof.Machine

/-! ## Each index function as a bit range (R80 to R84, R86) -/

theorem idx4_eq_extractLsb' (va : Word) : idx4 va = va.extractLsb' 39 9 := shift_mask_eq_extractLsb' va 39

theorem idx3_eq_extractLsb' (va : Word) : idx3 va = va.extractLsb' 30 9 := shift_mask_eq_extractLsb' va 30

theorem idx2_eq_extractLsb' (va : Word) : idx2 va = va.extractLsb' 21 9 := shift_mask_eq_extractLsb' va 21

theorem idx1_eq_extractLsb' (va : Word) : idx1 va = va.extractLsb' 12 9 := shift_mask_eq_extractLsb' va 12

/-- Narrowing a masked word to a width that the mask fits into loses nothing. -/
theorem setWidth_setWidth_and {n : Nat} (x : Word) {m : Word} (hm : m < BitVec.twoPow 64 n) :
    ((x &&& m).setWidth n).setWidth 64 = x &&& m := by
  have hlt : x &&& m < BitVec.twoPow 64 n := by
    rw [BitVec.lt_def, BitVec.toNat_and]
    exact Nat.and_le_right.trans_lt hm
  exact BitVec.setWidth_setWidth_eq_self hlt

/-- Settles O2: the masks are as wide as the fields, so a field keeps all that its mask lets through. -/
theorem indexFunctionsAreShiftsAndBitRanges : Obligations.IndexFunctionsAreShiftsAndBitRanges := by
  intro va
  have hindex (n : Nat) : (((va >>> n) &&& 0x1FF#64).setWidth 9).setWidth 64 = (va >>> n) &&& 0x1FF#64 :=
    setWidth_setWidth_and (va >>> n) (by decide)
  have hoff : (off va).setWidth 64 = va &&& 0xFFF#64 := setWidth_setWidth_and va (by decide)
  exact ⟨⟨idx4_eq_extractLsb' va, hindex 39⟩, ⟨idx3_eq_extractLsb' va, hindex 30⟩, ⟨idx2_eq_extractLsb' va, hindex 21⟩,
    ⟨idx1_eq_extractLsb' va, hindex 12⟩, off_eq_extractLsb' va, hoff⟩

/-! ## INDEX (R85) -/

/-- INDEX checks no phase (R85). -/
theorem exec_index (va : Word) (s : State) : exec (.index va) s =
    .next (respond s (.indexOk (idx4 va) (idx3 va) (idx2 va) (idx1 va) (off va))) := rfl

/-- Settles O1: the answer of `exec_index`, each field written as its bit range. -/
theorem indexAnswersTheFiveFields : Obligations.IndexAnswersTheFiveFields := by
  intro va s
  rw [exec_index, idx4_eq_extractLsb', idx3_eq_extractLsb', idx2_eq_extractLsb', idx1_eq_extractLsb',
    off_eq_extractLsb']
  rfl

/-! ## The five fields together (R87) -/

/-- The four indices are the 36 bits above the page offset. -/
theorem extractLsb'_eq_indices (va : Word) :
    va.extractLsb' 12 36 = idx4 va ++ idx3 va ++ idx2 va ++ idx1 va := by
  rw [idx4_eq_extractLsb', idx3_eq_extractLsb', idx2_eq_extractLsb', idx1_eq_extractLsb',
    BitVec.extractLsb'_append_extractLsb'_eq_extractLsb' (by rfl),
    BitVec.extractLsb'_append_extractLsb'_eq_extractLsb' (by rfl),
    BitVec.extractLsb'_append_extractLsb'_eq_extractLsb' (by rfl)]

/-- The five fields are the low 48 bits (R87 item 1). -/
theorem extractLsb'_eq_fields (va : Word) :
    va.extractLsb' 0 48 = idx4 va ++ idx3 va ++ idx2 va ++ idx1 va ++ off va := by
  rw [← extractLsb'_eq_indices, off_eq_extractLsb', BitVec.extractLsb'_append_extractLsb'_eq_extractLsb' (by rfl)]

/-- The offset reads bits 0 to 11 and no other (R84). -/
theorem off_eq_of_bits {v w : Word} (h : v.extractLsb' 0 12 = w.extractLsb' 0 12) : off v = off w := by
  rw [off_eq_extractLsb', off_eq_extractLsb', h]

/-- A concatenation determines its two parts. -/
theorem append_inj {n m : Nat} {a c : BitVec n} {b d : BitVec m} (h : a ++ b = c ++ d) : a = c ∧ b = d := by
  have hlow : b = d := by
    rw [← BitVec.extractLsb'_append_eq_right (a := a) (b := b), h, BitVec.extractLsb'_append_eq_right]
  subst hlow
  exact ⟨(BitVec.append_left_inj b).1 h, rfl⟩

theorem indices_inj {a4 a3 a2 a1 b4 b3 b2 b1 : Index} (h : a4 ++ a3 ++ a2 ++ a1 = b4 ++ b3 ++ b2 ++ b1) :
    a4 = b4 ∧ a3 = b3 ∧ a2 = b2 ∧ a1 = b1 := by
  obtain ⟨h432, h1⟩ := append_inj h
  obtain ⟨h43, h2⟩ := append_inj h432
  obtain ⟨h4, h3⟩ := append_inj h43
  exact ⟨h4, h3, h2, h1⟩

/-- Bits 63:48 are in no field (R87 item 2). -/
theorem fields_eq_of_low_bits {v w : Word} (h : v.extractLsb' 0 48 = w.extractLsb' 0 48) :
    samePath v w ∧ off v = off w :=
  ⟨samePath_of_bits (extractLsb'_eq_of_range h (by omega) (by omega)),
    off_eq_of_bits (extractLsb'_eq_of_range h (by omega) (by omega))⟩

/-- The address with the given fields and zeros in bits 63:48. -/
def addressOfFields (i4 i3 i2 i1 : Index) (o : Offset) : Word := 0#16 ++ (i4 ++ i3 ++ i2 ++ i1 ++ o)

/-- Every combination of fields is reached (R87 item 3): rebuilding an address from its fields loses none of them. -/
theorem fields_addressOfFields (i4 i3 i2 i1 : Index) (o : Offset) :
    let va := addressOfFields i4 i3 i2 i1 o
    idx4 va = i4 ∧ idx3 va = i3 ∧ idx2 va = i2 ∧ idx1 va = i1 ∧ off va = o := by
  intro va
  have hfields : idx4 va ++ idx3 va ++ idx2 va ++ idx1 va ++ off va = i4 ++ i3 ++ i2 ++ i1 ++ o :=
    (extractLsb'_eq_fields va).symm.trans BitVec.extractLsb'_append_eq_right
  obtain ⟨hindices, ho⟩ := append_inj hfields
  obtain ⟨h4, h3, h2, h1⟩ := indices_inj hindices
  exact ⟨h4, h3, h2, h1, ho⟩

/-- Bits 47:12 are what a path is made of (R87 item 4). -/
theorem samePath_iff_bits {v w : Word} : samePath v w ↔ v.extractLsb' 12 36 = w.extractLsb' 12 36 := by
  refine ⟨fun ⟨h4, h3, h2, h1⟩ => ?_, samePath_of_bits⟩
  rw [extractLsb'_eq_indices, extractLsb'_eq_indices, h4, h3, h2, h1]

/-- Settles O3, one lemma for each item of R87. -/
theorem addressFieldsReconstruct : Obligations.AddressFieldsReconstruct := by
  refine ⟨extractLsb'_eq_fields, fun va h => ?ignoresHigh, fun i4 i3 i2 i1 o => ?reaches, fun v w => samePath_iff_bits⟩
  case ignoresHigh =>
    obtain ⟨⟨h4, h3, h2, h1⟩, ho⟩ := fields_eq_of_low_bits (BitVec.extractLsb'_append_eq_right (a := h))
    exact ⟨h4, h3, h2, h1, ho⟩
  case reaches => exact ⟨addressOfFields i4 i3 i2 i1 o, fields_addressOfFields i4 i3 i2 i1 o⟩

end Sys2Proof.Machine

/-! SUPPORT. The INSERTs of the family 41_insert.md: what one INSERT answers, that a second one to the same path with
the same operands is absorbed, and what a sequence of INSERTs makes of each flag set and of each leaf's address. -/

namespace Sys2Proof.Machine

/-! ## One INSERT (R90, R93 to R95) -/

theorem exec_insert_buildable (va pa f : Word) {s : State} (hp : s.phase = .buildable) :
    exec (.insert va pa f) s = .next (respond (setRoot s (insertTree s.root va pa f)) .insertOk) := by
  rw [exec_insert, treeCommand_buildable hp]

/-- What later commands meet after an INSERT that ran. -/
theorem phase_root_of_exec_insert {va pa f : Word} {s t : State} (hp : s.phase = .buildable)
    (h : exec (.insert va pa f) s = .next t) : t.phase = .buildable ∧ t.root = insertTree s.root va pa f := by
  rw [exec_insert_buildable va pa f hp] at h
  cases h
  exact ⟨hp, rfl⟩

/-- Settles O4: `insertTree`, whose flat view is `insertedInto_insertTree`. -/
theorem insertWritesItsPathAndNothingElse : Obligations.InsertWritesItsPathAndNothingElse :=
  fun va pa f s hp =>
    ⟨insertTree s.root va pa f, exec_insert_buildable va pa f hp, insertedInto_insertTree s.root va pa f⟩

/-! ## The same INSERT again (R98) -/

/-- Stepping what the step has made changes nothing more. -/
def Absorbing {α : Type} (step : Option α → α) : Prop := ∀ old, step (some (step old)) = step old

theorem flagUnion_absorbs (f g : Flags) : flagUnion (flagUnion f g) g = flagUnion f g := by
  rw [flagUnion, flagUnion, BitVec.or_assoc, BitVec.or_self]

theorem slotUpdate_absorbs {α : Type} {step : Option α → α} (h : Absorbing step) (xs : Slots α) (i : Index) :
    slotUpdate (slotUpdate xs i step) i step = slotUpdate xs i step := by
  rw [slotUpdate_slotUpdate, funext h]

theorem leafStep_absorbing (pa f : Word) : Absorbing (leafStep pa f) := fun old => by
  simp [leafStep, flagUnion_absorbs]

/-- The step of an intermediate level is absorbed if the step below it is. -/
theorem passThrough_absorbing {α : Type} {step : Option α → α} (h : Absorbing step) (f : Word) (i : Index) :
    Absorbing (passThrough f fun xs => slotUpdate xs i step) := fun old => by
  simp [passThrough, flagUnion_absorbs, slotUpdate_absorbs h]

theorem pdptStep_absorbing (va pa f : Word) : Absorbing (pdptStep va pa f) :=
  passThrough_absorbing
    (passThrough_absorbing (passThrough_absorbing (leafStep_absorbing pa f) f (idx1 va)) f (idx2 va)) f (idx3 va)

theorem insertTree_insertTree (r : Root) (va pa f : Word) :
    insertTree (insertTree r va pa f) va pa f = insertTree r va pa f :=
  congrArg Root.mk (slotUpdate_absorbs (pdptStep_absorbing va pa f) r.slots (idx4 va))

/-- Settles O5: the second INSERT replaces the tree by itself. -/
theorem repeatedInsertChangesNothing : Obligations.RepeatedInsertChangesNothing := by
  intro va pa f s t hp h
  obtain ⟨htp, htr⟩ := phase_root_of_exec_insert hp h
  have hsame : insertTree t.root va pa f = t.root := by rw [htr, insertTree_insertTree]
  rw [exec_insert_buildable va pa f htp, hsame]
  rfl

/-! ## `widened` as an order on flag sets that may be absent (R19, R96) -/

theorem widened_some_iff {f g : Flags} : widened (some f) (some g) ↔ subFlags f g = true := by
  constructor
  · intro h
    have hand : g &&& f = f := h
    exact hand ▸ subFlags_iff.2 fun i hi => by
      rw [BitVec.getLsbD_and, Bool.and_eq_true] at hi
      exact hi.1
  · intro h
    have hand : g &&& f = f := BitVec.eq_of_getLsbD_eq fun i _ => by
      cases hf : f.getLsbD i with
      | false => simp [hf]
      | true => simp [hf, subFlags_iff.1 h i hf]
    exact hand

theorem widened_some_left {f : Flags} {q : Option Flags} :
    widened (some f) q ↔ ∃ g, q = some g ∧ subFlags f g = true := by
  cases q with
  | none => simp [widened]
  | some g => simp [widened_some_iff]

theorem widened_refl (o : Option Flags) : widened o o := by
  cases o with
  | none => trivial
  | some f => exact widened_some_iff.2 (subFlags_refl f)

theorem widened_antisymm {o q : Option Flags} (h : widened o q) (h' : widened q o) : o = q := by
  cases o with
  | none =>
    cases q with
    | none => rfl
    | some g => exact h'.elim
  | some f =>
    obtain ⟨g, rfl, -⟩ := widened_some_left.1 h
    have hgf : g &&& f = f := h
    have hfg : f &&& g = g := h'
    rw [← hgf, BitVec.and_comm, hfg]

theorem subFlags_or_iff {f g m : Flags} :
    subFlags (f ||| g) m = true ↔ subFlags f m = true ∧ subFlags g m = true :=
  ⟨fun h => ⟨subFlags_trans (subFlags_union_left g (subFlags_refl f)) h, subFlags_trans (subFlags_union_right f g) h⟩,
    fun ⟨hf, hg⟩ => subFlags_union hf hg⟩

/-- The union with a flag operand is the least upper bound of the old flag set and the operand. -/
theorem widened_or_iff {o q : Option Flags} {f : Flags} :
    widened (some (o.getD 0 ||| f)) q ↔ widened o q ∧ widened (some f) q := by
  cases o with
  | none => simp [widened]
  | some g =>
    cases q with
    | none => simp [widened]
    | some h => simpa only [Option.getD_some, widened_some_iff] using subFlags_or_iff

/-! ## What a sequence of INSERTs makes of one flag set (R96, R99, R102) -/

/-- `level` reads a flag set of the tree that collects the truncated operands of the INSERTs `via` picks, and `via`
picks by the path alone. -/
structure Collects (level : Root → Option Flags) (mask : Word) (via : InsertOp → Bool) : Prop where
  insert : ∀ r x, level (insertTree r x.vaddr x.paddr x.flags) =
    if via x then some ((level r).getD 0 ||| (x.flags &&& mask)) else level r
  byPath : ∀ x y, samePath x.vaddr y.vaddr → via x = via y

theorem pdptFlags_collects (i4 : Index) :
    Collects (pdptFlags · i4) Config.intermediateFlagMask (viaPdpt i4) where
  insert r x := by
    obtain ⟨hpdpt, -⟩ := insertedInto_insertTree r x.vaddr x.paddr x.flags
    simp only [hpdpt, viaPdpt_iff]
  byPath x y := fun ⟨h4, _⟩ => by rw [viaPdpt, viaPdpt, h4]

theorem pdFlags_collects (i4 i3 : Index) :
    Collects (pdFlags · i4 i3) Config.intermediateFlagMask (viaPd i4 i3) where
  insert r x := by
    obtain ⟨-, hpd, -⟩ := insertedInto_insertTree r x.vaddr x.paddr x.flags
    simp only [hpd, viaPd_iff]
  byPath x y h := by
    have ⟨_, h3, _⟩ := h
    rw [viaPd, viaPd, (pdptFlags_collects i4).byPath x y h, h3]

theorem ptFlags_collects (i4 i3 i2 : Index) :
    Collects (ptFlags · i4 i3 i2) Config.intermediateFlagMask (viaPt i4 i3 i2) where
  insert r x := by
    obtain ⟨-, -, hpt, -⟩ := insertedInto_insertTree r x.vaddr x.paddr x.flags
    simp only [hpt, viaPt_iff]
  byPath x y h := by
    have ⟨_, _, h2, _⟩ := h
    rw [viaPt, viaPt, (pdFlags_collects i4 i3).byPath x y h, h2]

theorem leafFlags_collects (i4 i3 i2 i1 : Index) :
    Collects (leafFlags · i4 i3 i2 i1) Config.leafFlagMask (viaLeaf i4 i3 i2 i1) where
  insert r x := by
    obtain ⟨-, -, -, hleaf⟩ := insertedInto_insertTree r x.vaddr x.paddr x.flags
    have hold : (leafAt r i4 i3 i2 i1).map Leaf.flags = leafFlags r i4 i3 i2 i1 := rfl
    rw [leafFlags, hleaf]
    simp only [viaLeaf_iff, apply_ite (Option.map Leaf.flags), Option.map_some, hold]
  byPath x y h := by
    have ⟨_, _, _, h1⟩ := h
    rw [viaLeaf, viaLeaf, (ptFlags_collects i4 i3 i2).byPath x y h, h1]

section
variable {level : Root → Option Flags} {mask : Word} {via : InsertOp → Bool}

/-- After a sequence of INSERTs a flag set is the least one with the old flags and every operand that went through. -/
theorem Collects.widened_insertAll_iff (h : Collects level mask via) (xs : List InsertOp) {r : Root}
    {q : Option Flags} : widened (level (insertAll r xs)) q ↔
      widened (level r) q ∧ ∀ x ∈ xs, via x = true → widened (some (x.flags &&& mask)) q := by
  induction xs generalizing r with
  | nil => simp [insertAll]
  | cons x xs ih =>
    have hcons : insertAll r (x :: xs) = insertAll (insertTree r x.vaddr x.paddr x.flags) xs := rfl
    rw [hcons, ih, h.insert, List.forall_mem_cons]
    by_cases hx : via x = true
    · simp only [hx, if_true, widened_or_iff, and_assoc, true_implies]
    · simp [hx]

theorem Collects.widened_insertAll (h : Collects level mask via) (r : Root) (xs : List InsertOp) :
    widened (level r) (level (insertAll r xs)) :=
  ((h.widened_insertAll_iff xs).1 (widened_refl _)).1

/-- Every operand that went through is in the flag set. -/
theorem Collects.operand_widened (h : Collects level mask via) (r : Root) {xs : List InsertOp} {x : InsertOp}
    (hx : x ∈ xs) (hvia : via x = true) : widened (some (x.flags &&& mask)) (level (insertAll r xs)) :=
  ((h.widened_insertAll_iff xs).1 (widened_refl _)).2 x hx hvia

/-- Every INSERT of `xs` is matched in `ys` by one to the same path with the same flag operand. -/
def CoveredBy (xs ys : List InsertOp) : Prop :=
  ∀ x ∈ xs, ∃ y ∈ ys, samePath x.vaddr y.vaddr ∧ y.flags = x.flags

theorem Collects.widened_of_coveredBy (h : Collects level mask via) (r : Root) {xs ys : List InsertOp}
    (hcover : CoveredBy xs ys) : widened (level (insertAll r xs)) (level (insertAll r ys)) := by
  refine (h.widened_insertAll_iff xs).2 ⟨h.widened_insertAll r ys, fun x hx hvia => ?_⟩
  obtain ⟨y, hy, hpath, hflags⟩ := hcover x hx
  rw [← hflags]
  exact h.operand_widened r hy (h.byPath x y hpath ▸ hvia)

theorem Collects.eq_of_coveredBy (h : Collects level mask via) (r : Root) {xs ys : List InsertOp}
    (hxy : CoveredBy xs ys) (hyx : CoveredBy ys xs) : level (insertAll r xs) = level (insertAll r ys) :=
  widened_antisymm (h.widened_of_coveredBy r hxy) (h.widened_of_coveredBy r hyx)

/-- Two INSERTs through one node unite both operands into its flags (R99). -/
theorem Collects.insert_insert (h : Collects level mask via) (r : Root) {v1 p1 f1 v2 p2 f2 : Word}
    (h1 : via ⟨v1, p1, f1⟩ = true) (h2 : via ⟨v2, p2, f2⟩ = true) :
    level (insertTree (insertTree r v1 p1 f1) v2 p2 f2) = some ((level r).getD 0 ||| ((f1 ||| f2) &&& mask)) := by
  have hmask : (f1 ||| f2) &&& mask = (f1 &&& mask) ||| (f2 &&& mask) :=
    BitVec.eq_of_getLsbD_eq fun i _ => by
      simp only [BitVec.getLsbD_and, BitVec.getLsbD_or, Bool.and_or_distrib_right]
  rw [h.insert _ ⟨v2, p2, f2⟩, if_pos h2, h.insert r ⟨v1, p1, f1⟩, if_pos h1, Option.getD_some, BitVec.or_assoc, hmask]

end

/-! ## The tree only grows (R19, R96) -/

theorem treeWidened_refl (r : Root) : treeWidened r r :=
  ⟨fun _ => widened_refl _, fun _ _ => widened_refl _, fun _ _ _ => widened_refl _, fun _ _ _ _ => widened_refl _⟩

theorem treeWidened_insertAll (r : Root) (xs : List InsertOp) : treeWidened r (insertAll r xs) :=
  ⟨fun i4 => (pdptFlags_collects i4).widened_insertAll r xs,
    fun i4 i3 => (pdFlags_collects i4 i3).widened_insertAll r xs,
    fun i4 i3 i2 => (ptFlags_collects i4 i3 i2).widened_insertAll r xs,
    fun i4 i3 i2 i1 => (leafFlags_collects i4 i3 i2 i1).widened_insertAll r xs⟩

/-- Settles O33: of the rows of the outcome table only an INSERT changes the tree and leaves it alive. -/
theorem treeOnlyGrowsUntilCommit : Obligations.TreeOnlyGrowsUntilCommit := by
  intro i s t h hp
  cases exec_effect h with
  | index | refusedConsumed | translate => exact treeWidened_refl s.root
  | insert va pa f => exact treeWidened_insertAll s.root [⟨va, pa, f⟩]
  | commitFails | commitSucceeds => cases hp

/-! ## Two INSERTs under one PT node (R99) -/

/-- The leaf that an INSERT makes at a path that had none. -/
theorem leafAt_insertTree_fresh {r : Root} {va : Word} (pa f : Word)
    (h : leafAt r (idx4 va) (idx3 va) (idx2 va) (idx1 va) = none) :
    leafAt (insertTree r va pa f) (idx4 va) (idx3 va) (idx2 va) (idx1 va) =
      some { addr := pa &&& Config.paStoreMask, flags := f &&& Config.leafFlagMask } := by
  simp [leafAt_insertTree, h, leafStep, storedAddr, flagUnion, truncL]

/-- An INSERT leaves a leaf with another innermost index alone. -/
theorem leafAt_insertTree_of_ne (r : Root) (va pa f : Word) (i4 i3 i2 : Index) {i1 : Index} (h : i1 ≠ idx1 va) :
    leafAt (insertTree r va pa f) i4 i3 i2 i1 = leafAt r i4 i3 i2 i1 := by
  rw [leafAt_insertTree, if_neg fun hpath => h hpath.2]

/-- Settles O6: each INSERT makes its own leaf and leaves the other's alone, and `Collects.insert_insert` says what the
three shared ancestors hold. -/
theorem siblingsShareAncestorsNotLeaves : Obligations.SiblingsShareAncestorsNotLeaves := by
  intro v1 p1 f1 v2 p2 f2 s t u hp h4 h3 h2 h1 hnone1 hnone2 ht hu
  obtain ⟨htp, htr⟩ := phase_root_of_exec_insert hp ht
  obtain ⟨-, hur⟩ := phase_root_of_exec_insert htp hu
  rw [hur, htr]
  refine ⟨?leaf1, ?leaf2, ?pdpt, ?pd, ?pt⟩
  case leaf1 => rw [leafAt_insertTree_of_ne _ _ _ _ _ _ _ h1, leafAt_insertTree_fresh _ _ hnone1]
  case leaf2 =>
    exact leafAt_insertTree_fresh _ _ (by rw [leafAt_insertTree_of_ne _ _ _ _ _ _ _ h1.symm, hnone2])
  case pdpt =>
    exact (pdptFlags_collects (idx4 v1)).insert_insert s.root (viaPdpt_iff.2 rfl) (viaPdpt_iff.2 h4)
  case pd =>
    exact (pdFlags_collects (idx4 v1) (idx3 v1)).insert_insert s.root (viaPd_iff.2 ⟨rfl, rfl⟩)
      (viaPd_iff.2 ⟨h4, h3⟩)
  case pt =>
    exact (ptFlags_collects (idx4 v1) (idx3 v1) (idx2 v1)).insert_insert s.root
      (viaPt_iff.2 ⟨rfl, rfl, rfl⟩) (viaPt_iff.2 ⟨h4, h3, h2⟩)

/-! ## NX on a shared ancestor (R101) -/

/-- NX stays in the flags of a PDPT node it went through, whatever INSERTs are before or after. -/
theorem pdptFlags_insertAll_nx (r : Root) {va : Word} {xs : List InsertOp} {x : InsertOp} (hx : x ∈ xs)
    (h4 : idx4 va = idx4 x.vaddr) (hnx : x.flags.getLsbD 63 = true) :
    ∃ f, pdptFlags (insertAll r xs) (idx4 va) = some f ∧ f.getLsbD 63 = true := by
  have hoperand := (pdptFlags_collects (idx4 va)).operand_widened r hx (viaPdpt_iff.2 h4)
  obtain ⟨f, hf, hsub⟩ := widened_some_left.1 hoperand
  have hmask : Config.intermediateFlagMask.getLsbD 63 = true := by decide
  exact ⟨f, hf, subFlags_iff.1 hsub 63 (by rw [BitVec.getLsbD_and, hnx, hmask, Bool.and_self])⟩

/-- A PDPT node with NX stops every walk that wants Execute. -/
theorem walk_eq_none_of_pdptFlags_nx {r : Root} {va : Word} {prot : Prot} {f : Flags}
    (hf : pdptFlags r (idx4 va) = some f) (hnx : f.getLsbD 63 = true) (hexecute : prot.getLsbD 2 = true) :
    walk r va prot = none := by
  refine Option.eq_none_iff_forall_ne_some.2 fun l hwalk => ?_
  obtain ⟨pdpt, -, -, ⟨hslot, hallow⟩, -⟩ := walk_eq_some.1 hwalk
  have hflags : pdpt.flags = f := by
    rw [pdptFlags, pdptAt, hslot] at hf
    exact Option.some.inj hf
  obtain ⟨-, -, hnone⟩ := (allow_iff _ _).1 hallow
  rw [hflags, hnx] at hnone
  exact absurd (hnone hexecute) (by decide)

/-- Settles O14: the NX operand is still in the flags of the root slot's PDPT node, so that node stops the walk. -/
theorem nxOnASharedAncestorDeniesExecute : Obligations.NxOnASharedAncestorDeniesExecute := by
  intro v1 p1 f1 v2 p2 f2 v prot s t u hp hnx hexecute h4 ht hu
  obtain ⟨htp, htr⟩ := phase_root_of_exec_insert hp ht
  obtain ⟨hup, hur⟩ := phase_root_of_exec_insert htp hu
  have hroot : u.root = insertAll s.root [⟨v1, p1, f1⟩, ⟨v2, p2, f2⟩] := by rw [hur, htr]; rfl
  obtain ⟨g, hg, hbit⟩ := pdptFlags_insertAll_nx s.root (xs := [⟨v1, p1, f1⟩, ⟨v2, p2, f2⟩]) List.mem_cons_self h4 hnx
  rw [← hroot] at hg
  have hwalk : walk u.root v prot = none := walk_eq_none_of_pdptFlags_nx hg hbit hexecute
  have hmiss : translateAnswer u.phase u.root v prot = .translateMiss := by
    rw [hup, translateAnswer, translateResponse, hwalk]
  rw [exec_translate, hmiss]
  rfl

/-! ## Two sequences of INSERTs (R102) -/

theorem insertAll_append_one (r : Root) (xs : List InsertOp) (x : InsertOp) :
    insertAll r (xs ++ [x]) = insertTree (insertAll r xs) x.vaddr x.paddr x.flags := by
  simp [insertAll]

/-- A leaf's address is that of the last INSERT at its path, and the old one if there is none. -/
theorem leafAddr_insertAll (r : Root) (xs : List InsertOp) (i4 i3 i2 i1 : Index) :
    (leafAt (insertAll r xs) i4 i3 i2 i1).map Leaf.addr =
      (lastAddr (viaLeaf i4 i3 i2 i1) xs).or ((leafAt r i4 i3 i2 i1).map Leaf.addr) := by
  induction xs using List.reverseRecOn with
  | nil => rfl
  | append_singleton xs x ih =>
    obtain ⟨-, -, -, hleaf⟩ := insertedInto_insertTree (insertAll r xs) x.vaddr x.paddr x.flags
    rw [insertAll_append_one, lastAddr_append_one, hleaf]
    simp only [viaLeaf_iff]
    split
    · rfl
    · exact ih

/-- INSERT commands that ran one after another have made `insertAll` of the tree. -/
theorem root_of_run_insertMoves {a : Alloc} {xs : List InsertOp} {s t : State} (hp : s.phase = .buildable)
    (hi : s.inputs = xs.map (insertMove a)) (hrun : core.run xs.length s = .next t) :
    t.root = insertAll s.root xs := by
  obtain ⟨t', hrun', -, hroot⟩ := run_insertMoves a xs hp hi
  cases hrun.symm.trans hrun'
  exact hroot

/-- Settles O8: each flag set is the least upper bound of the same old flags and the same operands, and
`leafAddr_insertAll` says which address a leaf has. -/
theorem insertOrderMattersForAddressesOnly : Obligations.InsertOrderMattersForAddressesOnly := by
  intro a b xs ys s t u v hps hpu hroot hxs hys hxy hyx hrunx hruny
  rw [root_of_run_insertMoves hps hxs hrunx, root_of_run_insertMoves hpu hys hruny, hroot]
  exact ⟨fun i4 => (pdptFlags_collects i4).eq_of_coveredBy s.root hxy hyx,
    fun i4 i3 => (pdFlags_collects i4 i3).eq_of_coveredBy s.root hxy hyx,
    fun i4 i3 i2 => (ptFlags_collects i4 i3 i2).eq_of_coveredBy s.root hxy hyx,
    fun i4 i3 i2 i1 => (leafFlags_collects i4 i3 i2 i1).eq_of_coveredBy s.root hxy hyx,
    leafAddr_insertAll s.root xs⟩

end Sys2Proof.Machine

/-! SUPPORT. The TRANSLATEs of the family 42_translate.md: an occupied path of the tree and what a TRANSLATE along it
answers, which bits of flag sets the walk reads, and the sum it answers with. -/

namespace Sys2Proof.Machine

/-! ## A path with all four slots occupied (R110, R113) -/

/-- The three nodes and the leaf on the path of a virtual address, in the flat view of the tree (R17). -/
structure OccupiedPath (r : Root) (va : Word) (pdpt : PdptNode) (pd : PdNode) (pt : PtNode) (l : Leaf) : Prop where
  pdpt_at : pdptAt r (idx4 va) = some pdpt
  pd_at : pdAt r (idx4 va) (idx3 va) = some pd
  pt_at : ptAt r (idx4 va) (idx3 va) (idx2 va) = some pt
  leaf_at : leafAt r (idx4 va) (idx3 va) (idx2 va) (idx1 va) = some l

/-- The four flag sets a walk checks, outer to inner (R112). -/
def levelFlags (pdpt : PdptNode) (pd : PdNode) (pt : PtNode) (l : Leaf) : List Flags :=
  [pdpt.flags, pd.flags, pt.flags, l.flags]

theorem forall_mem_levelFlags {P : Flags → Prop} {pdpt : PdptNode} {pd : PdNode} {pt : PtNode} {l : Leaf} :
    (∀ f ∈ levelFlags pdpt pd pt l, P f) ↔ P pdpt.flags ∧ P pd.flags ∧ P pt.flags ∧ P l.flags := by
  simp [levelFlags]

section
variable {r : Root} {va : Word} {prot : Prot} {pdpt : PdptNode} {pd : PdNode} {pt : PtNode} {l : Leaf}

/-! ### One level of the flat view below a node that exists -/

theorem pdAt_eq_slotGet {i4 : Index} (h : pdptAt r i4 = some pdpt) (i3 : Index) :
    pdAt r i4 i3 = slotGet pdpt.slots i3 := by rw [pdAt, h, Option.bind_some]

theorem ptAt_eq_slotGet {i4 i3 : Index} (h : pdAt r i4 i3 = some pd) (i2 : Index) :
    ptAt r i4 i3 i2 = slotGet pd.slots i2 := by rw [ptAt, h, Option.bind_some]

theorem leafAt_eq_slotGet {i4 i3 i2 : Index} (h : ptAt r i4 i3 i2 = some pt) (i1 : Index) :
    leafAt r i4 i3 i2 i1 = slotGet pt.slots i1 := by rw [leafAt, h, Option.bind_some]

/-- The flat view of a path is its slots, each read in the node before it. -/
theorem occupiedPath_iff_slots : OccupiedPath r va pdpt pd pt l ↔
    slotGet r.slots (idx4 va) = some pdpt ∧ slotGet pdpt.slots (idx3 va) = some pd ∧
      slotGet pd.slots (idx2 va) = some pt ∧ slotGet pt.slots (idx1 va) = some l := by
  constructor
  · rintro ⟨h4, h3, h2, h1⟩
    exact ⟨h4, (pdAt_eq_slotGet h4 _).symm.trans h3, (ptAt_eq_slotGet h3 _).symm.trans h2,
      (leafAt_eq_slotGet h2 _).symm.trans h1⟩
  · rintro ⟨h4, h3, h2, h1⟩
    have hpd := (pdAt_eq_slotGet h4 _).trans h3
    have hpt := (ptAt_eq_slotGet hpd _).trans h2
    exact ⟨h4, hpd, hpt, (leafAt_eq_slotGet hpt _).trans h1⟩

/-- A leaf stands at the end of an occupied path. -/
theorem exists_occupiedPath (h : leafAt r (idx4 va) (idx3 va) (idx2 va) (idx1 va) = some l) :
    ∃ pdpt pd pt, OccupiedPath r va pdpt pd pt l := by
  obtain ⟨pt, hpt, -⟩ := Option.bind_eq_some_iff.1 h
  obtain ⟨pd, hpd, -⟩ := Option.bind_eq_some_iff.1 hpt
  obtain ⟨pdpt, hpdpt, -⟩ := Option.bind_eq_some_iff.1 hpd
  exact ⟨pdpt, pd, pt, hpdpt, hpd, hpt, h⟩

/-- The walk ends at a leaf exactly when it is the one on its path and every level on the path allows the request. -/
theorem walk_eq_some_iff_path : walk r va prot = some l ↔
    ∃ pdpt pd pt, OccupiedPath r va pdpt pd pt l ∧ ∀ f ∈ levelFlags pdpt pd pt l, allow f prot = true := by
  simp only [walk_eq_some, occupiedPath_iff_slots, forall_mem_levelFlags]
  constructor
  · rintro ⟨pdpt, pd, pt, ⟨h4, a4⟩, ⟨h3, a3⟩, ⟨h2, a2⟩, h1, a1⟩
    exact ⟨pdpt, pd, pt, ⟨h4, h3, h2, h1⟩, a4, a3, a2, a1⟩
  · rintro ⟨pdpt, pd, pt, ⟨h4, h3, h2, h1⟩, a4, a3, a2, a1⟩
    exact ⟨pdpt, pd, pt, ⟨h4, a4⟩, ⟨h3, a3⟩, ⟨h2, a2⟩, h1, a1⟩

theorem leafAt_of_walk (h : walk r va prot = some l) :
    leafAt r (idx4 va) (idx3 va) (idx2 va) (idx1 va) = some l := by
  obtain ⟨_, _, _, hpath, -⟩ := walk_eq_some_iff_path.1 h
  exact hpath.leaf_at

theorem OccupiedPath.unique {pdpt' : PdptNode} {pd' : PdNode} {pt' : PtNode} {l' : Leaf}
    (h : OccupiedPath r va pdpt pd pt l) (h' : OccupiedPath r va pdpt' pd' pt' l') :
    pdpt' = pdpt ∧ pd' = pd ∧ pt' = pt ∧ l' = l :=
  ⟨Option.some.inj (h'.pdpt_at.symm.trans h.pdpt_at), Option.some.inj (h'.pd_at.symm.trans h.pd_at),
    Option.some.inj (h'.pt_at.symm.trans h.pt_at), Option.some.inj (h'.leaf_at.symm.trans h.leaf_at)⟩

/-- The walk along an occupied path. -/
theorem OccupiedPath.walk_eq (h : OccupiedPath r va pdpt pd pt l) :
    walk r va prot = if ∀ f ∈ levelFlags pdpt pd pt l, allow f prot = true then some l else none := by
  split
  case isTrue hall => exact walk_eq_some_iff_path.2 ⟨pdpt, pd, pt, h, hall⟩
  case isFalse hdenied =>
    refine Option.eq_none_iff_forall_ne_some.2 fun l' hwalk => hdenied ?_
    obtain ⟨pdpt', pd', pt', h', hall⟩ := walk_eq_some_iff_path.1 hwalk
    obtain ⟨rfl, rfl, rfl, rfl⟩ := h.unique h'
    exact hall

/-- A path with an empty slot ends the walk. -/
theorem walk_eq_none_of_leafAt (h : leafAt r (idx4 va) (idx3 va) (idx2 va) (idx1 va) = none) :
    walk r va prot = none :=
  Option.eq_none_iff_forall_ne_some.2 fun l hwalk => by
    rw [leafAt_of_walk hwalk] at h
    cases h

end

/-! ## What a TRANSLATE answers (R110, R114, R116) -/

theorem exec_translate_buildable (va : Word) (prot : Prot) {s : State} (hp : s.phase = .buildable) :
    exec (.translate va prot) s = .next (respond s (translateResponse s.root va prot)) := by
  rw [exec_translate, hp, translateAnswer]

/-- A TRANSLATE along an occupied path; `p` is any form of the condition that every level allows the request. -/
theorem exec_translate_of_path {s : State} {va : Word} {prot : Prot} {pdpt : PdptNode} {pd : PdNode} {pt : PtNode}
    {l : Leaf} {p : Prop} [Decidable p] (hp : s.phase = .buildable) (h : OccupiedPath s.root va pdpt pd pt l)
    (hcondition : (∀ f ∈ levelFlags pdpt pd pt l, allow f prot = true) ↔ p) :
    exec (.translate va prot) s = .next { s with
      responses := (if p then .translateOk (resultAddr l.addr va) else .translateMiss) :: s.responses } := by
  rw [exec_translate_buildable va prot hp, translateResponse, h.walk_eq]
  by_cases hc : p
  · rw [if_pos hc, if_pos (hcondition.2 hc)]; rfl
  · rw [if_neg hc, if_neg fun hall => hc (hcondition.1 hall)]; rfl

section
variable {prot : Prot} {pdpt : PdptNode} {pd : PdNode} {pt : PtNode} {l : Leaf}

theorem getLsbD_and_levels (k : Nat) : (pdpt.flags &&& pd.flags &&& pt.flags &&& l.flags).getLsbD k = true ↔
    ∀ f ∈ levelFlags pdpt pd pt l, f.getLsbD k = true := by
  rw [forall_mem_levelFlags]
  simp only [BitVec.getLsbD_and, Bool.and_eq_true, and_assoc]

theorem getLsbD_or_levels (k : Nat) : (pdpt.flags ||| pd.flags ||| pt.flags ||| l.flags).getLsbD k = false ↔
    ∀ f ∈ levelFlags pdpt pd pt l, f.getLsbD k = false := by
  rw [forall_mem_levelFlags]
  simp only [BitVec.getLsbD_or, Bool.or_eq_false_iff, and_assoc]

/-- Every level allows a request exactly when all four have Present, all have Writable if Write is requested, and none
has NX if Execute is. -/
theorem forall_allow_iff_and_or : (∀ f ∈ levelFlags pdpt pd pt l, allow f prot = true) ↔
    (pdpt.flags &&& pd.flags &&& pt.flags &&& l.flags).getLsbD 0 = true ∧
      (prot.getLsbD 1 = false ∨ (pdpt.flags &&& pd.flags &&& pt.flags &&& l.flags).getLsbD 1 = true) ∧
      (prot.getLsbD 2 = false ∨ (pdpt.flags ||| pd.flags ||| pt.flags ||| l.flags).getLsbD 63 = false) := by
  simp only [getLsbD_and_levels, getLsbD_or_levels, allow_iff, imp_and, forall_and]
  cases prot.getLsbD 1 <;> cases prot.getLsbD 2 <;> simp

end

/-- Settles O9: `exec_translate_of_path` with the condition of `forall_allow_iff_and_or` where the path is occupied, and
no leaf for the walk to end at where it is not. -/
theorem translateAnswersByTheFourLevels : Obligations.TranslateAnswersByTheFourLevels := by
  intro va prot s hp
  refine ⟨fun pdpt pd pt l h4 h3 h2 h1 => ?occupied, fun hnone => ?empty⟩
  case occupied =>
    rw [← off_eq_extractLsb']
    exact exec_translate_of_path hp ⟨h4, h3, h2, h1⟩ forall_allow_iff_and_or
  case empty =>
    rw [exec_translate_buildable va prot hp, translateResponse, walk_eq_none_of_leafAt hnone]
    rfl

/-! ## Under the invariant: the leaf and the outermost node decide (R113, R16 item 6) -/

theorem childFlags_sub_of_nodeOk {α : Type} {childOk : α → Bool} {childFlags : α → Flags} {n : Node α} {i : Index}
    {c : α} (h : nodeOk childOk childFlags n = true) (hc : slotGet n.slots i = some c) :
    subFlags (childFlags c) n.flags = true := by
  obtain ⟨-, -, -, hchildren⟩ := nodeOk_iff.1 h
  exact (hchildren _ (mem_of_slotGet hc)).2

theorem truncI_sub (f : Word) : subFlags (truncI f) f = true :=
  subFlags_iff.2 fun i h => by
    rw [truncI, BitVec.getLsbD_and, Bool.and_eq_true] at h
    exact h.1

/-- Along a path of a well-formed tree the intermediate flags only shrink. -/
theorem OccupiedPath.flags_nested {r : Root} {va : Word} {pdpt : PdptNode} {pd : PdNode} {pt : PtNode} {l : Leaf}
    (h : OccupiedPath r va pdpt pd pt l) (hr : rootOk r = true) :
    subFlags (truncI l.flags) pt.flags = true ∧ subFlags pt.flags pd.flags = true ∧
      subFlags pd.flags pdpt.flags = true := by
  obtain ⟨-, h3, h2, h1⟩ := occupiedPath_iff_slots.1 h
  exact ⟨childFlags_sub_of_nodeOk (ptOk_of_ptAt hr h.pt_at) h1, childFlags_sub_of_nodeOk (pdOk_of_pdAt hr h.pd_at) h2,
    childFlags_sub_of_nodeOk (pdptOk_of_pdptAt hr h.pdpt_at) h3⟩

/-- A bit that both kinds of nodes keep is in `g` if it is in `f` and `g` has the intermediate flags of `f`. -/
theorem getLsbD_of_truncI_sub {f g : Flags} {k : Nat} (h : subFlags (truncI f) g = true)
    (hk : Config.intermediateFlagMask.getLsbD k = true) (hf : f.getLsbD k = true) : g.getLsbD k = true :=
  subFlags_iff.1 h k (by rw [truncI, BitVec.getLsbD_and, hf, hk, Bool.and_self])

/-- A flag set between `f` and `h` allows what the Present and Writable of `f` and the NX of `h` allow. -/
theorem allow_of_between {f g h : Flags} {prot : Prot} (hfg : subFlags (truncI f) g = true)
    (hgh : subFlags (truncI g) h = true) (hpresent : f.getLsbD 0 = true)
    (hwrite : prot.getLsbD 1 = true → f.getLsbD 1 = true) (hexecute : prot.getLsbD 2 = true → h.getLsbD 63 = false) :
    allow g prot = true := by
  refine (allow_iff g prot).2 ⟨?present, fun hw => ?writable, fun hx => ?noExecute⟩
  case present => exact getLsbD_of_truncI_sub hfg (by decide) hpresent
  case writable => exact getLsbD_of_truncI_sub hfg (by decide) (hwrite hw)
  case noExecute =>
    refine Bool.eq_false_iff.2 fun hnx => ?_
    have houter := getLsbD_of_truncI_sub hgh (by decide) hnx
    rw [hexecute hx] at houter
    cases houter

/-- Every level of an occupied path of a well-formed tree lies between the leaf and the outermost node. -/
theorem OccupiedPath.levels_between {r : Root} {va : Word} {pdpt : PdptNode} {pd : PdNode} {pt : PtNode} {l : Leaf}
    (h : OccupiedPath r va pdpt pd pt l) (hr : rootOk r = true) :
    ∀ g ∈ levelFlags pdpt pd pt l,
      subFlags (truncI l.flags) g = true ∧ subFlags (truncI g) pdpt.flags = true := by
  obtain ⟨hpt, hpd, hpdpt⟩ := h.flags_nested hr
  have hptTop := subFlags_trans hpd hpdpt
  exact forall_mem_levelFlags.2
    ⟨⟨subFlags_trans hpt hptTop, truncI_sub _⟩, ⟨subFlags_trans hpt hpd, subFlags_trans (truncI_sub _) hpdpt⟩,
      ⟨hpt, subFlags_trans (truncI_sub _) hptTop⟩, truncI_sub _, subFlags_trans hpt hptTop⟩

theorem OccupiedPath.forall_allow_iff {r : Root} {va : Word} {pdpt : PdptNode} {pd : PdNode} {pt : PtNode} {l : Leaf}
    (h : OccupiedPath r va pdpt pd pt l) (hr : rootOk r = true) (prot : Prot) :
    (∀ f ∈ levelFlags pdpt pd pt l, allow f prot = true) ↔
      l.flags.getLsbD 0 = true ∧ (prot.getLsbD 1 = true → l.flags.getLsbD 1 = true) ∧
        (prot.getLsbD 2 = true → pdpt.flags.getLsbD 63 = false) := by
  constructor
  · intro hall
    obtain ⟨hpdpt, -, -, hl⟩ := forall_mem_levelFlags.1 hall
    obtain ⟨hpresent, hwrite, -⟩ := (allow_iff _ _).1 hl
    obtain ⟨-, -, hexecute⟩ := (allow_iff _ _).1 hpdpt
    exact ⟨hpresent, hwrite, hexecute⟩
  · rintro ⟨hpresent, hwrite, hexecute⟩ g hg
    obtain ⟨hlow, hhigh⟩ := h.levels_between hr g hg
    exact allow_of_between hlow hhigh hpresent hwrite hexecute

/-- Settles O10: R16 item 6 puts every level between the leaf and the outermost node. -/
theorem translateReducesToLeafAndOutermostNx : Obligations.TranslateReducesToLeafAndOutermostNx := by
  intro va prot s pdpt l hs hp hpdpt hl
  obtain ⟨pdpt', pd, pt, hpath⟩ := exists_occupiedPath hl
  cases Option.some.inj (hpath.pdpt_at.symm.trans hpdpt)
  exact exec_translate_of_path hp hpath (hpath.forall_allow_iff (stateOk_iff.1 hs).1 prot)

/-! ## The bits of flag sets that a walk reads (R112, R117 to R121) -/

/-- Two flag sets with the same Present, Writable and NX. -/
def SameChecked (f g : Flags) : Prop :=
  f.getLsbD 0 = g.getLsbD 0 ∧ f.getLsbD 1 = g.getLsbD 1 ∧ f.getLsbD 63 = g.getLsbD 63

theorem allow_eq_of_sameChecked {f g : Flags} (h : SameChecked f g) (prot : Prot) : allow f prot = allow g prot := by
  obtain ⟨hpresent, hwritable, hnx⟩ := h
  exact Bool.eq_iff_iff.2 (by rw [allow_iff, allow_iff, hpresent, hwritable, hnx])

theorem slotGet_map {α β : Type} (f : α → β) (xs : Slots α) (i : Index) :
    slotGet (xs.map fun e => (e.1, f e.2)) i = (slotGet xs i).map f := by
  induction xs with
  | nil => rfl
  | cons e xs ih =>
    obtain ⟨j, c⟩ := e
    simp only [List.map_cons, slotGet, ih]
    split <;> rfl

/-- One level of the walk, where every child is mapped to one that allows the same. -/
theorem enter_map {α β : Type} {flagsOf : α → Flags} {flagsOf' : β → Flags} {prot : Prot} (f : α → β)
    (h : ∀ c, allow (flagsOf' (f c)) prot = allow (flagsOf c) prot) (xs : Slots α) (i : Index) :
    enter flagsOf' prot (xs.map fun e => (e.1, f e.2)) i = (enter flagsOf prot xs i).map f := by
  unfold enter
  rw [slotGet_map]
  cases slotGet xs i with
  | none => rfl
  | some c =>
    simp only [Option.map_some, h]
    split <;> rfl

/-- The walk as its four levels, one after another. -/
theorem walk_eq_bind (r : Root) (va : Word) (prot : Prot) :
    walk r va prot = (enter Node.flags prot r.slots (idx4 va)).bind fun pdpt =>
      (enter Node.flags prot pdpt.slots (idx3 va)).bind fun pd =>
        (enter Node.flags prot pd.slots (idx2 va)).bind fun pt => enter Leaf.flags prot pt.slots (idx1 va) := by
  unfold walk
  cases enter Node.flags prot r.slots (idx4 va) with
  | none => rfl
  | some pdpt =>
    simp only [Option.bind_some]
    cases enter Node.flags prot pdpt.slots (idx3 va) with
    | none => rfl
    | some pd =>
      simp only [Option.bind_some]
      cases enter Node.flags prot pd.slots (idx2 va) <;> rfl

/-- `mapFlags` at a leaf. -/
def mapLeaf (g : Flags → Flags) (l : Leaf) : Leaf := { addr := l.addr, flags := g l.flags }

/-- `mapFlags` at a node: `g` on its own flags and `f` on each child. -/
def mapNode {α : Type} (g : Flags → Flags) (f : α → α) (n : Node α) : Node α :=
  { flags := g n.flags, slots := n.slots.map fun e => (e.1, f e.2) }

theorem mapFlags_slots (g : Flags → Flags) (r : Root) : (mapFlags g r).slots =
    r.slots.map fun e => (e.1, mapNode g (mapNode g (mapNode g (mapLeaf g))) e.2) := rfl

section
variable {g : Flags → Flags} {prot : Prot}

/-- One level of the walk under `mapFlags`: the mapped child, walked on from there. -/
theorem bind_enter_mapNode {α β : Type} (hg : ∀ f, allow (g f) prot = allow f prot) {f : α → α} {h : β → β}
    {below : Node α → Option β} (hbelow : ∀ n, below (mapNode g f n) = (below n).map h) (xs : Slots (Node α))
    (i : Index) :
    (enter Node.flags prot (xs.map fun e => (e.1, mapNode g f e.2)) i).bind below =
      ((enter Node.flags prot xs i).bind below).map h := by
  rw [enter_map (flagsOf := Node.flags) (mapNode g f) (fun n => hg n.flags), Option.bind_map, Option.map_bind]
  exact congrArg _ (funext hbelow)

/-- A walk ends at the same leaf after a change of flags that no check sees. -/
theorem walk_mapFlags (hg : ∀ f, allow (g f) prot = allow f prot) (r : Root) (va : Word) :
    walk (mapFlags g r) va prot = (walk r va prot).map (mapLeaf g) := by
  rw [walk_eq_bind, walk_eq_bind, mapFlags_slots]
  refine bind_enter_mapNode hg (fun pdpt => ?_) r.slots (idx4 va)
  refine bind_enter_mapNode hg (fun pd => ?_) pdpt.slots (idx3 va)
  refine bind_enter_mapNode hg (fun pt => ?_) pd.slots (idx2 va)
  exact enter_map (mapLeaf g) (fun l => hg l.flags) pt.slots (idx1 va)

theorem translateAnswer_mapFlags (hg : ∀ f, allow (g f) prot = allow f prot) (ph : Phase) (r : Root) (va : Word) :
    translateAnswer ph (mapFlags g r) va prot = translateAnswer ph r va prot := by
  cases ph with
  | consumed => rfl
  | buildable =>
    simp only [translateAnswer, translateResponse, walk_mapFlags hg]
    cases walk r va prot <;> rfl

end

/-- Settles O11: no check sees the change of flags (`allow_eq_of_sameChecked`), so no walk does. -/
theorem translateReadsThreeFlagBitsOnly : Obligations.TranslateReadsThreeFlagBitsOnly := by
  intro va prot s t g hg h
  have hallow : ∀ f, allow (g f) prot = allow f prot := fun f => allow_eq_of_sameChecked (hg f) prot
  rw [exec_translate] at h
  cases h
  rw [exec_translate, translateAnswer_mapFlags hallow]
  rfl

/-! ## An INSERT on a fresh path, read back (R122) -/

theorem sameChecked_truncI (f : Word) : SameChecked (truncI f) f := by
  simp [SameChecked, truncI, Config.intermediateFlagMask]

theorem sameChecked_truncL (f : Word) : SameChecked (truncL f) f := by
  simp [SameChecked, truncL, Config.leafFlagMask]

section
variable {r : Root} {va : Word} (pa f : Word)

/-- The nodes and the leaf that an INSERT makes where there was no PDPT node, on every path to its page. -/
theorem occupiedPath_insertTree_fresh (hfresh : pdptAt r (idx4 va) = none) {v : Word} (hv : samePath v va) :
    OccupiedPath (insertTree r va pa f) v (pdptStep va pa f none) (pdStep va pa f none) (ptStep va pa f none)
      (leafStep pa f none) := by
  obtain ⟨h4, h3, h2, h1⟩ := hv
  have hpd : pdAt r (idx4 va) (idx3 va) = none := by rw [pdAt, hfresh, Option.bind_none]
  have hpt : ptAt r (idx4 va) (idx3 va) (idx2 va) = none := by rw [ptAt, hpd, Option.bind_none]
  have hleaf : leafAt r (idx4 va) (idx3 va) (idx2 va) (idx1 va) = none := by rw [leafAt, hpt, Option.bind_none]
  constructor
  · rw [pdptAt_insertTree, h4, if_pos rfl, hfresh]
  · rw [pdAt_insertTree, h4, h3, if_pos ⟨rfl, rfl⟩, hpd]
  · rw [ptAt_insertTree, h4, h3, h2, if_pos ⟨⟨rfl, rfl⟩, rfl⟩, hpt]
  · rw [leafAt_insertTree, h4, h3, h2, h1, if_pos ⟨⟨⟨rfl, rfl⟩, rfl⟩, rfl⟩, hleaf]

theorem passThrough_none_flags {α : Type} (below : Slots α → Slots α) :
    (passThrough f below none).flags = truncI f := by
  rw [passThrough_flags]
  exact BitVec.zero_or

theorem leafStep_none : leafStep pa f none = { addr := storedAddr pa, flags := truncL f } := by
  simp [leafStep, flagUnion]

/-- The levels that an INSERT makes allow what its flag operand allows. -/
theorem forall_allow_fresh_iff (va : Word) (prot : Prot) :
    (∀ g ∈ levelFlags (pdptStep va pa f none) (pdStep va pa f none) (ptStep va pa f none) (leafStep pa f none),
      allow g prot = true) ↔ allow f prot = true := by
  simp only [forall_mem_levelFlags, pdptStep, pdStep, ptStep, passThrough_none_flags, leafStep_none,
    allow_eq_of_sameChecked (sameChecked_truncI f), allow_eq_of_sameChecked (sameChecked_truncL f), and_self]

end

/-- Settles O13: the INSERT makes an occupied path whose four levels hold its own operand. -/
theorem roundTripOnAFreshPath : Obligations.RoundTripOnAFreshPath := by
  intro va pa f s hp hfresh hpresent
  have hrun := exec_insert_buildable va pa f hp
  obtain ⟨htp, htr⟩ := phase_root_of_exec_insert hp hrun
  refine ⟨_, hrun, fun v prot hv => ?_⟩
  have hcondition := (forall_allow_fresh_iff pa f va prot).trans (allow_iff f prot)
  simp only [hpresent, true_and] at hcondition
  exact exec_translate_of_path htp (htr ▸ occupiedPath_insertTree_fresh pa f hfresh hv) hcondition

/-! ## The sum of a TRANSLATE (R120) -/

/-- The page offset of an address, as a word, has no bit from 12 on. -/
theorem getLsbD_offset (va : Word) (k : Nat) :
    ((off va).setWidth 64).getLsbD k = (decide (k < 12) && va.getLsbD k) := by
  rw [off_eq_extractLsb', BitVec.getLsbD_setWidth, BitVec.getLsbD_extractLsb', Nat.zero_add]
  by_cases hk : k < 12
  · have hk64 : k < 64 := by omega
    simp [hk, hk64]
  · simp [hk]

/-- The address of a well-formed leaf has no bit below 12 (R15). -/
theorem getLsbD_addr_of_leafOk {l : Leaf} (h : leafOk l = true) {k : Nat} (hk : k < 12) : l.addr.getLsbD k = false := by
  have haddr : subFlags l.addr Config.paStoreMask = true := beq_iff_eq.2 (leafOk_iff.1 h).1
  have hmask := getLsbD_paStoreMask k (by omega)
  exact getLsbD_eq_false_of_sub haddr (by rw [hmask, decide_eq_false_iff_not]; omega)

/-- The address of a well-formed leaf and a page offset have no bit in common. -/
theorem addr_and_offset {l : Leaf} (h : leafOk l = true) (va : Word) : l.addr &&& (off va).setWidth 64 = 0#64 :=
  BitVec.eq_of_getLsbD_eq fun k _ => by
    rw [BitVec.getLsbD_and, getLsbD_offset, BitVec.getLsbD_zero]
    by_cases hk : k < 12
    · rw [getLsbD_addr_of_leafOk h hk, Bool.false_and]
    · simp [hk]

/-- Settles O15: a well-formed leaf's address and an offset share no bit, so their sum is their OR. -/
theorem translateSumNeverCarries : Obligations.TranslateSumNeverCarries := by
  intro va pa prot s hs hp h
  rw [exec_translate_buildable va prot hp] at h
  injection h with hnext
  have hresponse : translateResponse s.root va prot = .translateOk pa :=
    (List.cons.inj (congrArg State.responses hnext)).1
  obtain ⟨l, hwalk, rfl⟩ := translateResponse_eq_ok.1 hresponse
  have hleaf := leafAt_of_walk hwalk
  have hok := leafOk_of_leafAt (stateOk_iff.1 hs).1 hleaf
  have hor : resultAddr l.addr va = l.addr ||| (off va).setWidth 64 :=
    BitVec.add_eq_or_of_and_eq_zero _ _ (addr_and_offset hok va)
  refine ⟨l, hleaf, ?noCarry, hor, ?upper, ?lower⟩
  case noCarry =>
    have hsum := BitVec.toNat_add_of_and_eq_zero (addr_and_offset hok va)
    have hoff : ((off va).setWidth 64).toNat = (off va).toNat := BitVec.toNat_setWidth_of_le (by omega)
    rw [← hoff, ← hsum]
    exact BitVec.isLt _
  case upper =>
    refine BitVec.eq_of_getLsbD_eq fun k _ => ?_
    have hk : ¬ 12 + k < 12 := by omega
    simp only [hor, BitVec.getLsbD_extractLsb', BitVec.getLsbD_or, getLsbD_offset, hk, decide_false, Bool.false_and,
      Bool.or_false]
  case lower =>
    refine BitVec.eq_of_getLsbD_eq fun k hk => ?_
    simp only [hor, BitVec.getLsbD_extractLsb', Nat.zero_add, BitVec.getLsbD_or, getLsbD_offset,
      getLsbD_addr_of_leafOk hok hk, hk, decide_true, Bool.true_and, Bool.false_or]

end Sys2Proof.Machine

/-! SUPPORT. The path prefixes of the page-bearing nodes (R132, R133): depth-first pre-order as a list of relative
paths, subtree by subtree, and a node's rank in it. -/

namespace Sys2Proof.Machine

/-! ## The paths of a subtree, relative to its top -/

section
variable {α : Type}

/-- The paths, relative to a node, of the page-bearing nodes of its subtree: its own, then those of each child's
subtree, in the order of the slots. -/
def pathsFrom (sub : α → List (List Index)) (xs : Slots α) : List (List Index) :=
  [] :: xs.flatMap fun e => (sub e.2).map (e.1 :: ·)

/-- The size of the subtrees in the slots listed before slot `i`. -/
def sizeBefore (size : α → Nat) : Slots α → Index → Nat
  | [], _ => 0
  | (j, c) :: rest, i => if i = j then 0 else size c + sizeBefore size rest i

/-- How many paths of a list stand before a path in the lexicographic order. -/
def rankIn (paths : List (List Index)) (p : List Index) : Nat := (paths.filter fun q => decide (q < p)).length

theorem length_pathsFrom (sub : α → List (List Index)) (xs : Slots α) :
    (pathsFrom sub xs).length = 1 + (xs.map fun e => (sub e.2).length).sum := by
  simp [pathsFrom, List.length_flatMap, Nat.add_comm]

theorem nil_mem_pathsFrom (sub : α → List (List Index)) (xs : Slots α) : [] ∈ pathsFrom sub xs :=
  List.mem_cons_self

/-- The paths through a slot are those of the subtree in it. -/
theorem cons_mem_pathsFrom {sub : α → List (List Index)} {xs : Slots α} (hr : risingSlots xs = true) {i : Index}
    {q : List Index} : i :: q ∈ pathsFrom sub xs ↔ ∃ n, slotGet xs i = some n ∧ q ∈ sub n := by
  constructor
  · intro h
    obtain ⟨e, he, hq⟩ : ∃ e ∈ xs, i :: q ∈ (sub e.2).map (e.1 :: ·) := by simpa [pathsFrom] using h
    obtain ⟨q', hq', heq⟩ := List.mem_map.1 hq
    obtain ⟨rfl, rfl⟩ := List.cons.inj heq
    exact ⟨e.2, slotGet_of_mem hr he, hq'⟩
  · rintro ⟨n, hn, hq⟩
    exact List.mem_cons_of_mem _ (List.mem_flatMap.2 ⟨(i, n), mem_of_slotGet hn, List.mem_map_of_mem hq⟩)

/-- The paths through the slots of a rising list that starts above `i`, each after every path through slot `i`. -/
theorem lt_of_mem_flatMap {sub : α → List (List Index)} {xs : Slots α} {i : Index}
    (h : ∀ e ∈ xs, i.toNat < e.1.toNat) (p : List Index) :
    ∀ q ∈ xs.flatMap (fun e => (sub e.2).map (e.1 :: ·)), i :: p < q := by
  intro q hq
  obtain ⟨e, he, hq⟩ := List.mem_flatMap.1 hq
  obtain ⟨q', -, rfl⟩ := List.mem_map.1 hq
  exact List.cons_lt_cons_iff.2 (.inl (h e he))

/-- Pre-order is the lexicographic order, if it is in every child's subtree. -/
theorem pairwise_pathsFrom {sub : α → List (List Index)} {xs : Slots α} (hr : risingSlots xs = true)
    (hsub : ∀ e ∈ xs, (sub e.2).Pairwise (· < ·)) : (pathsFrom sub xs).Pairwise (· < ·) := by
  refine List.pairwise_cons.2 ⟨fun q hq => ?top, ?below⟩
  case top =>
    obtain ⟨e, -, hq⟩ := List.mem_flatMap.1 hq
    obtain ⟨q', -, rfl⟩ := List.mem_map.1 hq
    exact List.nil_lt_cons _ _
  case below =>
    induction xs with
    | nil => exact List.Pairwise.nil
    | cons e xs ih =>
      obtain ⟨habove, hrest⟩ := (risingSlots_cons e.1 e.2 xs).1 hr
      obtain ⟨hhead, htail⟩ := List.forall_mem_cons.1 hsub
      rw [List.flatMap_cons, List.pairwise_append]
      refine ⟨List.pairwise_map.2 (hhead.imp fun h => List.cons_lt_cons_iff.2 (.inr ⟨rfl, h⟩)), ih hrest htail, ?_⟩
      intro p hp q hq
      obtain ⟨p', -, rfl⟩ := List.mem_map.1 hp
      exact lt_of_mem_flatMap habove p' q hq

/-! ## Ranks -/

theorem rankIn_append (ps qs : List (List Index)) (p : List Index) :
    rankIn (ps ++ qs) p = rankIn ps p + rankIn qs p := by
  simp [rankIn]

theorem rankIn_eq_length {ps : List (List Index)} {p : List Index} (h : ∀ q ∈ ps, q < p) : rankIn ps p = ps.length := by
  rw [rankIn, List.filter_eq_self.2 fun q hq => decide_eq_true (h q hq)]

theorem rankIn_eq_zero {ps : List (List Index)} {p : List Index} (h : ∀ q ∈ ps, p < q) : rankIn ps p = 0 := by
  rw [rankIn, List.filter_eq_nil_iff.2 fun q hq hlt => List.lt_asymm (h q hq) (of_decide_eq_true hlt)]
  rfl

theorem rankIn_map_cons (i : Index) (ps : List (List Index)) (p : List Index) :
    rankIn (ps.map (i :: ·)) (i :: p) = rankIn ps p := by
  simp [rankIn, List.filter_map, Function.comp_def]

/-- In a list in lexicographic order a path's rank is its place. -/
theorem rankIn_of_getElem? {ps : List (List Index)} (h : ps.Pairwise (· < ·)) {k : Nat} {p : List Index}
    (hp : ps[k]? = some p) : rankIn ps p = k := by
  induction ps generalizing k with
  | nil => simp at hp
  | cons q ps ih =>
    obtain ⟨hq, hps⟩ := List.pairwise_cons.1 h
    have hsplit : rankIn (q :: ps) p = rankIn [q] p + rankIn ps p := rankIn_append [q] ps p
    cases k with
    | zero =>
      obtain rfl : q = p := by simpa using hp
      rw [hsplit, rankIn_eq_zero hq]
      simp [rankIn, List.lt_irrefl]
    | succ k =>
      have hps' : ps[k]? = some p := by simpa using hp
      have hlt : q < p := hq p (List.mem_of_getElem? hps')
      rw [hsplit, ih hps hps', rankIn_eq_length (by simpa using hlt), List.length_singleton, Nat.add_comm]

theorem rankIn_flatMap_cons {sub : α → List (List Index)} {xs : Slots α} (hr : risingSlots xs = true) {i : Index}
    {n : α} (hn : slotGet xs i = some n) (q : List Index) :
    rankIn (xs.flatMap fun e => (sub e.2).map (e.1 :: ·)) (i :: q) =
      sizeBefore (fun n => (sub n).length) xs i + rankIn (sub n) q := by
  induction xs with
  | nil => simp at hn
  | cons e xs ih =>
    obtain ⟨j, c⟩ := e
    obtain ⟨habove, hrest⟩ := (risingSlots_cons j c xs).1 hr
    rw [List.flatMap_cons, rankIn_append]
    by_cases hij : i = j
    · subst hij
      obtain rfl : c = n := by simpa [slotGet] using hn
      rw [rankIn_map_cons, rankIn_eq_zero (lt_of_mem_flatMap habove q)]
      simp [sizeBefore]
    · have hrec : slotGet xs i = some n := by simpa [slotGet, hij] using hn
      have hbefore : ∀ p ∈ (sub c).map (j :: ·), p < i :: q := fun p hp => by
        obtain ⟨p', -, rfl⟩ := List.mem_map.1 hp
        exact List.cons_lt_cons_iff.2 (.inl (habove _ (mem_of_slotGet hrec)))
      rw [rankIn_eq_length hbefore, ih hrest hrec, List.length_map]
      simp [sizeBefore, hij, Nat.add_assoc]

/-- The rank of a path through a slot: the node itself and the subtrees in lower slots come first (R133). -/
theorem rankIn_pathsFrom_cons {sub : α → List (List Index)} {xs : Slots α} (hr : risingSlots xs = true) {i : Index}
    {n : α} (hn : slotGet xs i = some n) (q : List Index) :
    rankIn (pathsFrom sub xs) (i :: q) =
      1 + sizeBefore (fun n => (sub n).length) xs i + rankIn (sub n) q := by
  have htop : rankIn [[]] (i :: q) = 1 := rankIn_eq_length (by simp)
  rw [pathsFrom, ← List.singleton_append, rankIn_append, htop, rankIn_flatMap_cons hr hn, Nat.add_assoc]

theorem rankIn_pathsFrom_nil (sub : α → List (List Index)) (xs : Slots α) : rankIn (pathsFrom sub xs) [] = 0 := by
  rw [rankIn, List.filter_eq_nil_iff.2 fun q _ => by simp]
  rfl

end

/-! ## The four levels -/

/-- The paths of a PT node's subtree: its own. Leaves get no page (R135). -/
def ptPaths (_ : PtNode) : List (List Index) := [[]]

/-- The relative paths of a PD node's subtree. -/
def pdPaths (n : PdNode) : List (List Index) := pathsFrom ptPaths n.slots

/-- The relative paths of a PDPT node's subtree. -/
def pdptPaths (n : PdptNode) : List (List Index) := pathsFrom pdPaths n.slots

theorem nodePaths_eq (r : Root) : nodePaths r = pathsFrom pdptPaths r.slots := by
  have hpt (xs : Slots PtNode) : (xs.flatMap fun e => [[e.1]]) = xs.map fun e => [e.1] := List.map_eq_flatMap.symm
  simp [nodePaths, pathsFrom, pdptPaths, pdPaths, ptPaths, List.map_flatMap, hpt, Function.comp_def]

theorem rankOf_eq (r : Root) (p : List Index) : rankOf r p = rankIn (pathsFrom pdptPaths r.slots) p := by
  rw [← nodePaths_eq]
  rfl

theorem length_pdPaths (n : PdNode) : (pdPaths n).length = pdPages n := by
  simp [pdPaths, length_pathsFrom, ptPaths, pdPages]

theorem length_pdptPaths (n : PdptNode) : (pdptPaths n).length = pdptPages n := by
  simp [pdptPaths, length_pathsFrom, length_pdPaths, pdptPages]

theorem length_nodePaths (r : Root) : (nodePaths r).length = pageCount r := by
  simp [nodePaths_eq, length_pathsFrom, length_pdptPaths, pageCount_eq_sum]

theorem pairwise_nodePaths {r : Root} (h : rootOk r = true) : (nodePaths r).Pairwise (· < ·) := by
  obtain ⟨hrising, hpdpt⟩ := rootOk_iff.1 h
  rw [nodePaths_eq]
  refine pairwise_pathsFrom hrising fun p hp => ?_
  have hp := hpdpt p hp
  refine pairwise_pathsFrom (nodeOk_rising hp) fun d hd => ?_
  exact pairwise_pathsFrom (nodeOk_rising (nodeOk_child hp hd)) fun _ _ => List.pairwise_singleton _ _

section
variable {r : Root} (h : rootOk r = true)
include h

theorem pdpt_mem_nodePaths {i4 : Index} {q : List Index} :
    i4 :: q ∈ nodePaths r ↔ ∃ n, pdptAt r i4 = some n ∧ q ∈ pdptPaths n := by
  rw [nodePaths_eq]
  exact cons_mem_pathsFrom (rootOk_iff.1 h).1

theorem pd_mem_nodePaths {i4 i3 : Index} {q : List Index} :
    i4 :: i3 :: q ∈ nodePaths r ↔ ∃ n, pdAt r i4 i3 = some n ∧ q ∈ pdPaths n := by
  rw [pdpt_mem_nodePaths h]
  constructor
  · rintro ⟨n, hn, hq⟩
    rw [pdAt_eq_slotGet hn]
    exact (cons_mem_pathsFrom (nodeOk_rising (pdptOk_of_pdptAt h hn))).1 hq
  · rintro ⟨m, hm, hq⟩
    obtain ⟨n, hn, hslot⟩ := Option.bind_eq_some_iff.1 hm
    exact ⟨n, hn, (cons_mem_pathsFrom (nodeOk_rising (pdptOk_of_pdptAt h hn))).2 ⟨m, hslot, hq⟩⟩

theorem pt_mem_nodePaths {i4 i3 i2 : Index} {q : List Index} :
    i4 :: i3 :: i2 :: q ∈ nodePaths r ↔ ∃ n, ptAt r i4 i3 i2 = some n ∧ q ∈ ptPaths n := by
  rw [pd_mem_nodePaths h]
  constructor
  · rintro ⟨n, hn, hq⟩
    rw [ptAt_eq_slotGet hn]
    exact (cons_mem_pathsFrom (nodeOk_rising (pdOk_of_pdAt h hn))).1 hq
  · rintro ⟨m, hm, hq⟩
    obtain ⟨n, hn, hslot⟩ := Option.bind_eq_some_iff.1 hm
    exact ⟨n, hn, (cons_mem_pathsFrom (nodeOk_rising (pdOk_of_pdAt h hn))).2 ⟨m, hslot, hq⟩⟩

theorem pdpt_path_iff {i4 : Index} : [i4] ∈ nodePaths r ↔ (pdptAt r i4).isSome = true := by
  simp [pdpt_mem_nodePaths h, Option.isSome_iff_exists, pdptPaths, nil_mem_pathsFrom]

theorem pd_path_iff {i4 i3 : Index} : [i4, i3] ∈ nodePaths r ↔ (pdAt r i4 i3).isSome = true := by
  simp [pd_mem_nodePaths h, Option.isSome_iff_exists, pdPaths, nil_mem_pathsFrom]

theorem pt_path_iff {i4 i3 i2 : Index} : [i4, i3, i2] ∈ nodePaths r ↔ (ptAt r i4 i3 i2).isSome = true := by
  simp [pt_mem_nodePaths h, Option.isSome_iff_exists, ptPaths]

theorem length_le_of_mem_nodePaths {p : List Index} (hp : p ∈ nodePaths r) : p.length ≤ 3 := by
  match p with
  | [] | [_] | [_, _] | [_, _, _] => simp
  | i4 :: i3 :: i2 :: i1 :: q =>
    obtain ⟨n, -, hq⟩ := (pt_mem_nodePaths h).1 hp
    simp [ptPaths] at hq

end

/-- Settles O20: by `pairwise_pathsFrom` at each level pre-order is the lexicographic order, so a rank is a place, and
by `cons_mem_pathsFrom` at each level the listed paths are the existing ones. -/
theorem preorderIsLexicographicOrder : Obligations.PreorderIsLexicographicOrder := by
  intro s hs
  have hr := (stateOk_iff.1 hs).1
  have hsorted := pairwise_nodePaths hr
  exact ⟨hsorted, length_nodePaths s.root, fun k p hp => rankIn_of_getElem? hsorted hp, List.mem_cons_self,
    fun _ => pdpt_path_iff hr, fun _ _ => pd_path_iff hr, fun _ _ _ => pt_path_iff hr,
    fun _ hp => length_le_of_mem_nodePaths hr hp⟩

end Sys2Proof.Machine

/-! SUPPORT. The outcome of a COMMIT (43_commit.md R131, R141 to R153): which requests it makes, that the allocator
decides nothing but whether it succeeds, and the pages it hands over. -/

namespace Sys2Proof.Machine

/-! ## COMMIT in phase BUILDABLE -/

/-- A COMMIT is its phase check and the serialization behind it. -/
theorem exec_commit (s : State) : exec .commit s = execCommit s := rfl

theorem exec_commit_ok {s : State} (hp : s.phase = .buildable) {pa : Word} {c : CommitRun}
    (hc : commitTree s.alloc s.root = .ok (pa, c)) :
    exec .commit s = .next (respond (countRequests (consumeTree s) c.nreq) (.commitOk pa c.image)) := by
  rw [exec_commit, execCommit, treeCommand_buildable hp, hc]

theorem exec_commit_error {s : State} (hp : s.phase = .buildable) {k : Nat}
    (hc : commitTree s.alloc s.root = .error k) :
    exec .commit s = .next (respond (countRequests (consumeTree s) k) .allocFail) := by
  rw [exec_commit, execCommit, treeCommand_buildable hp, hc]

theorem exec_commit_consumed {s : State} (hp : s.phase = .consumed) :
    exec .commit s = .next (respond s .consumed) := by
  rw [exec_commit, execCommit, treeCommand_consumed hp]

/-- After every COMMIT, successful or not, the tree is gone (R131). -/
theorem phase_of_exec_commit {s t : State} (h : exec .commit s = .next t) : t.phase = .consumed := by
  cases exec_effect h with
  | refusedConsumed i hop hp => exact hp
  | commitFails | commitSucceeds => rfl

/-- Settles O26. -/
theorem commitIsOneShot : Obligations.CommitIsOneShot :=
  fun _ _ h => exec_commit_consumed (phase_of_exec_commit h)

/-! ## Where a subtree's COMMIT fails -/

theorem commitChildren_cons_error {α : Type} {child : Node α → CommitRun → Except Nat (Word × CommitRun)} {ppa : Word}
    {i : Index} {n : Node α} {rest : Slots (Node α)} {c : CommitRun} {q : Nat}
    (h : commitChildren child ppa ((i, n) :: rest) c = .error q) :
    child n c = .error q ∨ ∃ cpa e, child n c = .ok (cpa, e) ∧
      commitChildren child ppa rest (storeEntry e (entryAddr ppa i) (entryWord cpa n.flags)) = .error q := by
  rw [commitChildren] at h
  cases hc : child n c with
  | error k => simp only [hc] at h; cases h; exact .inl rfl
  | ok ce => exact .inr ⟨ce.1, ce.2, rfl, by simpa only [hc] using h⟩

theorem commitPage_error {α : Type} {a : Alloc} {child : Node α → CommitRun → Except Nat (Word × CommitRun)}
    {slots : Slots (Node α)} {c : CommitRun} {q : Nat} (h : commitPage a child slots c = .error q) :
    (allocOk a c.nreq = false ∧ q = c.nreq + 1) ∨
      (allocOk a c.nreq = true ∧ commitChildren child c.next slots (grantPage c) = .error q) := by
  rcases newPage_cases a c with ⟨ha, hn⟩ | ⟨ha, hn⟩
  · simp only [commitPage, hn] at h
    split at h
    · next k hk => cases h; exact .inr ⟨ha, hk⟩
    · cases h
  · simp only [commitPage, hn] at h
    cases h
    exact .inl ⟨ha, rfl⟩

theorem commitPt_error {a : Alloc} {n : PtNode} {c : CommitRun} {q : Nat} (h : commitPt a n c = .error q) :
    allocOk a c.nreq = false ∧ q = c.nreq + 1 := by
  rcases newPage_cases a c with ⟨-, hn⟩ | ⟨ha, hn⟩
  · simp [commitPt, hn] at h
  · simp only [commitPt, hn] at h
    cases h
    exact ⟨ha, rfl⟩

/-! ## The requests of a COMMIT (R153) -/

/-- The allocator answers the requests from `m` up to `n`, without `n`, with ok. -/
def Granted (a : Alloc) (m n : Nat) : Prop := ∀ k, m ≤ k → k < n → allocOk a k = true

theorem Granted.empty (a : Alloc) (m : Nat) : Granted a m m := fun _ hlo hhi => absurd hhi (by omega)

theorem Granted.cons {a : Alloc} {m n : Nat} (hm : allocOk a m = true) (h : Granted a (m + 1) n) : Granted a m n := by
  intro k hlo hhi
  rcases Nat.eq_or_lt_of_le hlo with rfl | hlt
  · exact hm
  · exact h k hlt hhi

theorem Granted.trans {a : Alloc} {l m n : Nat} (h : Granted a l m) (h' : Granted a m n) : Granted a l n :=
  fun k hlo hhi => (Nat.lt_or_ge k m).elim (h k hlo) fun hge => h' k hge hhi

/-- Of the requests from `m` up to `n` one is failed, and `q` is the number of requests made when the first one is. -/
def FailsAfter (a : Alloc) (m n q : Nat) : Prop :=
  ∃ k, q = k + 1 ∧ m ≤ k ∧ k < n ∧ allocOk a k = false ∧ Granted a m k

theorem FailsAfter.first {a : Alloc} {m n : Nat} (h : allocOk a m = false) (hn : m < n) : FailsAfter a m n (m + 1) :=
  ⟨m, rfl, Nat.le_refl m, hn, h, Granted.empty a m⟩

theorem FailsAfter.mono {a : Alloc} {m n n' q : Nat} (h : FailsAfter a m n q) (hn : n ≤ n') : FailsAfter a m n' q := by
  obtain ⟨k, hq, hlo, hhi, hk, hg⟩ := h
  exact ⟨k, hq, hlo, Nat.lt_of_lt_of_le hhi hn, hk, hg⟩

theorem FailsAfter.of_granted {a : Alloc} {l m n q : Nat} (hg : Granted a l m) (hlm : l ≤ m) (h : FailsAfter a m n q) :
    FailsAfter a l n q := by
  obtain ⟨k, hq, hlo, hhi, hk, hg'⟩ := h
  exact ⟨k, hq, Nat.le_trans hlm hlo, hhi, hk, hg.trans hg'⟩

/-- A subtree's COMMIT that succeeds had all its requests granted, and one that fails stops at the first that was
not. -/
structure CommitAsks {α : Type} (a : Alloc) (child : Node α → CommitRun → Except Nat (Word × CommitRun))
    (size : Node α → Nat) : Prop where
  counts : CommitCounts child size
  granted : ∀ {n c pa d}, child n c = .ok (pa, d) → Granted a c.nreq d.nreq
  fails : ∀ {n c q}, child n c = .error q → FailsAfter a c.nreq (c.nreq + size n) q

section
variable {α : Type} {a : Alloc} {child : Node α → CommitRun → Except Nat (Word × CommitRun)} {size : Node α → Nat}

theorem commitChildren_granted (hchild : CommitAsks a child size) {p : Word} {xs : Slots (Node α)} {c d : CommitRun}
    (h : commitChildren child p xs c = .ok d) : Granted a c.nreq d.nreq := by
  induction xs generalizing c with
  | nil => cases h; exact Granted.empty a _
  | cons e xs ih =>
    obtain ⟨cpa, c', hhead, hrest⟩ := commitChildren_cons_ok h
    have htail := ih hrest
    rw [storeEntry_nreq] at htail
    exact (hchild.granted hhead).trans htail

theorem commitChildren_fails (hchild : CommitAsks a child size) {p : Word} {xs : Slots (Node α)} {c : CommitRun}
    {q : Nat} (h : commitChildren child p xs c = .error q) :
    FailsAfter a c.nreq (c.nreq + (xs.map fun e => size e.2).sum) q := by
  induction xs generalizing c with
  | nil => cases h
  | cons e xs ih =>
    rw [List.map_cons, List.sum_cons]
    rcases commitChildren_cons_error h with hhead | ⟨cpa, c', hhead, hrest⟩
    · exact (hchild.fails hhead).mono (by omega)
    · have hcount := hchild.counts _ _ _ _ hhead
      have htail := ih hrest
      simp only [storeEntry_nreq] at htail
      exact (htail.mono (by omega)).of_granted (hchild.granted hhead) (by omega)

theorem commitPage_granted (hchild : CommitAsks a child size) {xs : Slots (Node α)} {c d : CommitRun} {pa : Word}
    (h : commitPage a child xs c = .ok (pa, d)) : Granted a c.nreq d.nreq := by
  obtain ⟨ha, -, hchildren⟩ := commitPage_ok h
  exact Granted.cons ha (commitChildren_granted hchild hchildren)

theorem commitPage_fails (hchild : CommitAsks a child size) {xs : Slots (Node α)} {c : CommitRun} {q : Nat}
    (h : commitPage a child xs c = .error q) :
    FailsAfter a c.nreq (c.nreq + (1 + (xs.map fun e => size e.2).sum)) q := by
  rcases commitPage_error h with ⟨ha, rfl⟩ | ⟨ha, hchildren⟩
  · exact FailsAfter.first ha (by omega)
  · have hrest := commitChildren_fails hchild hchildren
    rw [grantPage_nreq] at hrest
    exact (hrest.mono (by omega)).of_granted (Granted.cons ha (Granted.empty a _)) (by omega)

end

theorem commitPt_asks (a : Alloc) : CommitAsks a (commitPt a) fun _ => 1 where
  counts := commitPt_counts a
  granted := by
    intro n c pa d h
    obtain ⟨ha, -, rfl⟩ := commitPt_ok h
    rw [commitLeaves_nreq]
    exact Granted.cons ha (Granted.empty a _)
  fails := by
    intro n c q h
    obtain ⟨ha, rfl⟩ := commitPt_error h
    exact FailsAfter.first ha (by omega)

theorem commitPd_asks (a : Alloc) : CommitAsks a (commitPd a) pdPages where
  counts := commitPd_counts a
  granted := commitPage_granted (commitPt_asks a)
  fails h := by simpa [pdPages] using commitPage_fails (commitPt_asks a) h

theorem commitPdpt_asks (a : Alloc) : CommitAsks a (commitPdpt a) pdptPages where
  counts := commitPdpt_counts a
  granted := commitPage_granted (commitPd_asks a)
  fails := commitPage_fails (commitPd_asks a)

/-- A COMMIT of the whole tree that fails stops at the first request the allocator fails. -/
theorem commitTree_fails {a : Alloc} {r : Root} {q : Nat} (h : commitTree a r = .error q) :
    ∃ k, q = k + 1 ∧ k < pageCount r ∧ allocFailsFirst a k := by
  obtain ⟨k, hq, -, hhi, hk, hg⟩ := commitPage_fails (commitPdpt_asks a) h
  refine ⟨k, hq, ?_, hk, fun j hj => hg j (Nat.zero_le j) hj⟩
  simpa [startRun, pageCount_eq_sum] using hhi

/-- A COMMIT of the whole tree that succeeds had every request granted. -/
theorem allocAll_of_commitTree {a : Alloc} {r : Root} {pa : Word} {c : CommitRun} (h : commitTree a r = .ok (pa, c)) :
    allocAll a (pageCount r) :=
  fun k hk => commitPage_granted (commitPdpt_asks a) h k (Nat.zero_le k) (commitTree_counts h ▸ hk)

theorem commitTree_of_allocAll {a : Alloc} {r : Root} (h : allocAll a (pageCount r)) :
    ∃ c, commitTree a r = .ok (0, c) ∧ c.nreq = pageCount r := by
  cases hc : commitTree a r with
  | error q =>
    obtain ⟨k, -, hk, hfail, -⟩ := commitTree_fails hc
    rw [h k hk] at hfail
    cases hfail
  | ok rc =>
    obtain ⟨pa, c⟩ := rc
    obtain ⟨rfl, -⟩ := commitTree_ok hc
    exact ⟨c, rfl, commitTree_counts hc⟩

theorem commitTree_of_allocFailsFirst {a : Alloc} {r : Root} {k : Nat} (hk : k < pageCount r)
    (h : allocFailsFirst a k) : commitTree a r = .error (k + 1) := by
  obtain ⟨hfail, hbefore⟩ := h
  cases hc : commitTree a r with
  | error q =>
    obtain ⟨j, rfl, -, hj, hbeforej⟩ := commitTree_fails hc
    rcases Nat.lt_trichotomy j k with hjk | rfl | hkj
    · rw [hbefore j hjk] at hj; cases hj
    · rfl
    · rw [hbeforej k hkj] at hfail; cases hfail
  | ok rc =>
    rw [allocAll_of_commitTree hc k hk] at hfail
    cases hfail

/-- Settles O17: the two clauses are `commitTree_of_allocAll` and `commitTree_of_allocFailsFirst`. -/
theorem commitOutcomeAndRequests : Obligations.CommitOutcomeAndRequests := by
  intro s hp
  refine ⟨fun hall => ?granted, fun k hk hfails => ?failed⟩
  case granted =>
    obtain ⟨c, hc, hcount⟩ := commitTree_of_allocAll hall
    rw [exec_commit_ok hp hc, hcount]
    exact ⟨c.image, rfl⟩
  case failed => exact exec_commit_error hp (commitTree_of_allocFailsFirst hk hfails)

/-! ## The allocator decides nothing but success (R145) -/

/-- The allocator that grants every request. -/
def granting : Alloc := { answers := [], rest := true }

/-- Where the one subtree's COMMIT succeeds, the other does the same. -/
def SucceedsAs {α : Type} (child child' : Node α → CommitRun → Except Nat (Word × CommitRun)) : Prop :=
  ∀ n c x, child n c = .ok x → child' n c = .ok x

theorem newPage_granting (c : CommitRun) : newPage granting c = .ok (c.next, grantPage c) := rfl

section
variable {α : Type} {child child' : Node α → CommitRun → Except Nat (Word × CommitRun)}

theorem commitChildren_succeedsAs (h : SucceedsAs child child') {p : Word} {xs : Slots (Node α)} {c d : CommitRun}
    (hd : commitChildren child p xs c = .ok d) : commitChildren child' p xs c = .ok d := by
  induction xs generalizing c with
  | nil => exact hd
  | cons e xs ih =>
    obtain ⟨cpa, c', hhead, hrest⟩ := commitChildren_cons_ok hd
    rw [commitChildren, h _ _ _ hhead]
    exact ih hrest

theorem commitPage_succeedsAs (h : SucceedsAs child child') {a : Alloc} {xs : Slots (Node α)} {c : CommitRun}
    {x : Word × CommitRun} (hx : commitPage a child xs c = .ok x) : commitPage granting child' xs c = .ok x := by
  obtain ⟨pa, d⟩ := x
  obtain ⟨-, rfl, hchildren⟩ := commitPage_ok hx
  have hsame : commitChildren child' c.next xs (grantPage c) = .ok d := commitChildren_succeedsAs h hchildren
  simp only [commitPage, newPage_granting, hsame]

end

theorem commitPt_succeedsAs (a : Alloc) : SucceedsAs (commitPt a) (commitPt granting) := by
  intro n c x hx
  obtain ⟨pa, d⟩ := x
  obtain ⟨-, rfl, rfl⟩ := commitPt_ok hx
  rfl

theorem commitPd_succeedsAs (a : Alloc) : SucceedsAs (commitPd a) (commitPd granting) :=
  fun _ _ _ hx => commitPage_succeedsAs (commitPt_succeedsAs a) hx

theorem commitPdpt_succeedsAs (a : Alloc) : SucceedsAs (commitPdpt a) (commitPdpt granting) :=
  fun _ _ _ hx => commitPage_succeedsAs (commitPd_succeedsAs a) hx

/-- A COMMIT that succeeds gives what it gives where every request is granted. -/
theorem commitTree_granting {a : Alloc} {r : Root} {x : Word × CommitRun} (h : commitTree a r = .ok x) :
    commitTree granting r = .ok x :=
  commitPage_succeedsAs (commitPdpt_succeedsAs a) h

/-- Settles O25: both COMMITs give what the COMMIT of the same tree gives where every request is granted. -/
theorem commitDependsOnTheTreeAlone : Obligations.CommitDependsOnTheTreeAlone := by
  intro s u hps hpu hroot hs hu
  rw [← hroot] at hu
  obtain ⟨c, hc, -⟩ := commitTree_of_allocAll hs
  obtain ⟨d, hd, -⟩ := commitTree_of_allocAll hu
  have hsame : c = d := by
    have hd' := commitTree_granting hd
    rw [hroot, commitTree_granting hc] at hd'
    cases hd'
    rfl
  subst hsame
  exact ⟨_, _, _, exec_commit_ok hps hc, exec_commit_ok hpu hd, rfl, rfl⟩

/-! ## The pages handed over (R141, R144, R151) -/

theorem commitTree_empty {a : Alloc} (h : allocOk a 0 = true) :
    commitTree a Root.empty = .ok (0, grantPage startRun) := by
  have hpage : newPage a startRun = .ok (0, grantPage startRun) := if_pos h
  rw [commitTree, commitPage, hpage]
  rfl

/-- Settles O24: the root's page is all there is, and nothing is stored in it. -/
theorem commitOfTheEmptyTree : Obligations.CommitOfTheEmptyTree := by
  intro s hp hroot halloc
  have hc : commitTree s.alloc s.root = .ok (0, grantPage startRun) := by rw [hroot, commitTree_empty halloc]
  refine ⟨(grantPage startRun).image, ?answer, rfl, fun a => ?bytes⟩
  case answer =>
    rw [exec_commit_ok hp hc, hroot]
    rfl
  case bytes =>
    have hin : inImage (grantPage startRun).image a = decide (a < 4096) := by
      simp [inImage, grantPage, startRun, emptyImage, Config.rootPa, Config.pageSize]
    rw [imageByte, hin]
    simp [grantPage, startRun, emptyImage, memRead, unlistedByte]

/-- Below `2^64` the page addresses rise. -/
theorem pairwise_pageAddrs {n : Nat} (h : n ≤ 2 ^ 52) : (pageAddrs n).Pairwise (· < ·) := by
  rw [pageAddrs, List.pairwise_map]
  refine List.pairwise_lt_range.imp_of_mem fun {j k} hj hk hlt => ?_
  rw [List.mem_range] at hj hk
  rw [BitVec.lt_def, BitVec.toNat_ofNat, BitVec.toNat_ofNat]
  omega

theorem pageCount_le_pow {r : Root} (h : rootOk r = true) : pageCount r ≤ 2 ^ 52 :=
  Nat.le_trans (pageCount_le h) (by decide)

/-- The image in an answer of a COMMIT is the one that serializing the tree gives. -/
theorem commitTree_of_exec_commit {s t : State} {pa : Word} {im : Image} (hp : s.phase = .buildable)
    (h : exec .commit s = .next t) (ht : t.responses = .commitOk pa im :: s.responses) :
    ∃ c, commitTree s.alloc s.root = .ok (pa, c) ∧ c.image = im := by
  cases hc : commitTree s.alloc s.root with
  | error k =>
    rw [exec_commit_error hp hc] at h
    cases h
    cases ht
  | ok rc =>
    obtain ⟨pa', c⟩ := rc
    rw [exec_commit_ok hp hc] at h
    cases h
    cases ht
    exact ⟨c, rfl, rfl⟩

/-- Settles O18: a COMMIT keeps one page for every request, consecutive from 0 (`RunOk`), and makes one request for
every page-bearing node. -/
theorem commitPagesAreContiguousFromZero : Obligations.CommitPagesAreContiguousFromZero := by
  intro s t pa im hs hp h ht
  obtain ⟨c, hc, rfl⟩ := commitTree_of_exec_commit hp h ht
  obtain ⟨hpa, hrun⟩ := commitTree_ok hc
  have hpages : c.image.pages = pageAddrs (pageCount s.root) := commitTree_counts hc ▸ hrun.pages_eq
  exact ⟨hpa, hpages, hpages ▸ pairwise_pageAddrs (pageCount_le_pow (stateOk_iff.1 hs).1)⟩

end Sys2Proof.Machine

/-! SUPPORT. The two parts of an entry word (R60, R137 to R140): an address and a flag set that share no bit. -/

namespace Sys2Proof.Machine

/-! ## Words within masks that share no bit -/

theorem and_eq_self_of_sub {f m : Word} (h : subFlags f m = true) : f &&& m = f :=
  BitVec.eq_of_getLsbD_eq fun i _ => by
    cases hf : f.getLsbD i with
    | false => simp [hf]
    | true => simp [hf, subFlags_iff.1 h i hf]

theorem and_eq_zero_of_bits {a b : Word} (h : ∀ i < 64, a.getLsbD i = true → b.getLsbD i = false) : a &&& b = 0 :=
  BitVec.eq_of_getLsbD_eq fun i hi => by
    cases ha : a.getLsbD i with
    | false => simp [ha]
    | true => simp [ha, h i hi ha]

theorem and_eq_zero_of_sub {a f m n : Word} (ha : subFlags a m = true) (hf : subFlags f n = true) (hmn : m &&& n = 0) :
    a &&& f = 0 := by
  refine and_eq_zero_of_bits fun i _ hbit => getLsbD_eq_false_of_sub hf ?_
  have hnone : (m &&& n).getLsbD i = false := by simp [hmn]
  rwa [BitVec.getLsbD_and, subFlags_iff.1 ha i hbit, Bool.true_and] at hnone

theorem or_and_of_disjoint {a f m : Word} (ha : subFlags a m = true) (hf : f &&& m = 0) : (a ||| f) &&& m = a := by
  have hdistrib : (a ||| f) &&& m = (a &&& m) ||| (f &&& m) :=
    BitVec.eq_of_getLsbD_eq fun i _ => by
      simp only [BitVec.getLsbD_and, BitVec.getLsbD_or, Bool.and_or_distrib_right]
  rw [hdistrib, and_eq_self_of_sub ha, hf]
  exact BitVec.or_zero

/-- An address with no bit in the flag mask: the OR with flags is the sum, and masking gives the flags back. -/
theorem entryWord_of_disjoint {a f n : Word} (ha : a &&& n = 0) (hf : subFlags f n = true) :
    entryWord a f = a + f ∧ entryWord a f &&& n = f := by
  have haf : a &&& f = 0 := by
    rw [← and_eq_self_of_sub hf, BitVec.and_comm f, ← BitVec.and_assoc, ha]
    exact BitVec.zero_and
  refine ⟨(BitVec.add_eq_or_of_and_eq_zero a f haf).symm, ?_⟩
  rw [entryWord, BitVec.or_comm]
  exact or_and_of_disjoint hf ha

/-! ## Addresses -/

/-- The address field of an entry word is bits 51:12 (R60). -/
theorem getLsbD_entryAddrMask : ∀ k < 64, Config.entryAddrMask.getLsbD k = decide (12 ≤ k ∧ k < 52) := by decide

/-- A page-aligned address below `2^52` fits the address field (R139, R140). -/
theorem sub_entryAddrMask {a : Word} (ha : subFlags a Config.paStoreMask = true) (hlt : a.toNat < 2 ^ 52) :
    subFlags a Config.entryAddrMask = true := by
  refine subFlags_iff.2 fun k hbit => ?_
  have hk : k < 64 := BitVec.lt_of_getLsbD hbit
  have hlo : 12 ≤ k := of_decide_eq_true ((getLsbD_paStoreMask k hk).symm.trans (subFlags_iff.1 ha k hbit))
  have hpow : 2 ^ k < 2 ^ 52 := Nat.lt_of_le_of_lt (Nat.ge_two_pow_of_testBit hbit) hlt
  rw [getLsbD_entryAddrMask k hk]
  exact decide_eq_true ⟨hlo, (Nat.pow_lt_pow_iff_right (by decide)).1 hpow⟩

/-- The address of the page that a COMMIT allocates with request `k` (R37, R133). -/
def pageAddr (k : Nat) : Word := BitVec.ofNat 64 (4096 * k)

theorem pageOf_eq (r : Root) (p : List Index) : pageOf r p = pageAddr (rankOf r p) := rfl

theorem pageAddr_toNat {k : Nat} (h : k < 2 ^ 52) : (pageAddr k).toNat = 4096 * k := by
  rw [pageAddr, BitVec.toNat_ofNat]
  omega

/-- A page's address is a multiple of 4096. -/
theorem pageAddr_sub (k : Nat) : subFlags (pageAddr k) Config.paStoreMask = true :=
  subFlags_iff.2 fun i hbit => by
    have hi : i < 64 := BitVec.lt_of_getLsbD hbit
    rw [pageAddr, BitVec.getLsbD_ofNat, show 4096 = 2 ^ 12 from rfl, Nat.testBit_two_pow_mul] at hbit
    rw [Bool.and_eq_true, Bool.and_eq_true] at hbit
    obtain ⟨-, hlo, -⟩ := hbit
    rw [getLsbD_paStoreMask i hi]
    exact hlo

/-- A well-formed leaf's address is page-aligned (R15). -/
theorem addr_sub_of_leafOk {l : Leaf} (h : leafOk l = true) : subFlags l.addr Config.paStoreMask = true :=
  beq_iff_eq.2 (leafOk_iff.1 h).1

/-- Of the leaf flag mask only bit 63 is where a page-aligned address has bits (R54, R55, R140). -/
theorem addr_and_leafFlagMask {l : Leaf} (h : leafOk l = true) (hbit63 : l.addr.getLsbD 63 = false) :
    l.addr &&& Config.leafFlagMask = 0 := by
  refine and_eq_zero_of_bits fun i hi haddr => Bool.eq_false_iff.2 fun hmask => ?_
  have hlo : 12 ≤ i :=
    of_decide_eq_true ((getLsbD_paStoreMask i hi).symm.trans (subFlags_iff.1 (addr_sub_of_leafOk h) i haddr))
  have honly : ∀ i < 64, 12 ≤ i → Config.leafFlagMask.getLsbD i = true → i = 63 := by decide
  rw [honly i hi hlo hmask, hbit63] at haddr
  cases haddr

/-- An address within the address field, OR the flags of either kind of node, gives the address back (R60, R140). -/
theorem entryWord_and_entryAddrMask {a f n : Word} (ha : subFlags a Config.entryAddrMask = true)
    (hf : subFlags f n = true) (hn : n &&& Config.entryAddrMask = 0) : (a ||| f) &&& Config.entryAddrMask = a :=
  or_and_of_disjoint ha (and_eq_zero_of_sub hf (subFlags_refl _) hn)

theorem intermediateFlagMask_and_entryAddrMask : Config.intermediateFlagMask &&& Config.entryAddrMask = 0 := by decide

/-- This rests on the value of the leaf flag mask (log entry 8), but not on which of bits 11:0 it has. -/
theorem leafFlagMask_and_entryAddrMask : Config.leafFlagMask &&& Config.entryAddrMask = 0 := by decide

/-- Settles O22: page addresses keep to bits 51:12, which the intermediate mask lacks; a leaf's address may have bits up
to 62, of which the leaf mask has none. -/
theorem entryWordPartsAreRecoverable : Obligations.EntryWordPartsAreRecoverable := by
  refine ⟨fun n f hn hf => ?child, fun l hl hbit63 => ?leaf⟩
  case child =>
    have hmax : Config.maxPages = 134480385 := by decide
    have hn52 : n < 2 ^ 40 := by omega
    have haddr : subFlags (pageAddr n) Config.entryAddrMask = true :=
      sub_entryAddrMask (pageAddr_sub n) (by rw [pageAddr_toNat (by omega)]; omega)
    have hdisjoint : pageAddr n &&& Config.intermediateFlagMask = 0 :=
      and_eq_zero_of_sub haddr (subFlags_refl _) (by decide)
    obtain ⟨hsum, hflags⟩ := entryWord_of_disjoint hdisjoint hf
    exact ⟨hsum, entryWord_and_entryAddrMask haddr hf intermediateFlagMask_and_entryAddrMask, hflags⟩
  case leaf =>
    obtain ⟨-, hf⟩ := leafOk_iff.1 hl
    obtain ⟨hsum, hflags⟩ := entryWord_of_disjoint (addr_and_leafFlagMask hl hbit63) hf
    exact ⟨hsum, hflags, fun hlt => entryWord_and_entryAddrMask (sub_entryAddrMask (addr_sub_of_leafOk hl) hlt) hf
      leafFlagMask_and_entryAddrMask⟩

end Sys2Proof.Machine

/-! SUPPORT. What a COMMIT leaves in each word of each page (R133, R135 to R138, R143). -/

namespace Sys2Proof.Machine

/-! ## The words of image memory (R33, R34) -/

theorem memRead_memWrite64_byte {m : Memory} (h : Memory.wf m) (pa w : Word) {j : Nat} (hj : j < 8) :
    memRead (memWrite64 m pa w) (pa.toNat + j) = byteOf w j := by
  rw [memRead_memWrite64 h, if_pos (by omega), Nat.add_sub_cancel_left]

/-- A word is its eight bytes, the least significant last. -/
theorem bytes_append (w : Word) : byteOf w 7 ++ byteOf w 6 ++ byteOf w 5 ++ byteOf w 4 ++ byteOf w 3 ++ byteOf w 2 ++
    byteOf w 1 ++ byteOf w 0 = w := by
  simp only [byteOf]
  rw [BitVec.extractLsb'_append_extractLsb'_eq_extractLsb' (by rfl),
    BitVec.extractLsb'_append_extractLsb'_eq_extractLsb' (by rfl),
    BitVec.extractLsb'_append_extractLsb'_eq_extractLsb' (by rfl),
    BitVec.extractLsb'_append_extractLsb'_eq_extractLsb' (by rfl),
    BitVec.extractLsb'_append_extractLsb'_eq_extractLsb' (by rfl),
    BitVec.extractLsb'_append_extractLsb'_eq_extractLsb' (by rfl),
    BitVec.extractLsb'_append_extractLsb'_eq_extractLsb' (by rfl)]
  exact BitVec.extractLsb'_eq_self

theorem memRead64_memWrite64_same {m : Memory} (h : Memory.wf m) (pa w : Word) :
    memRead64 (memWrite64 m pa w) pa.toNat = w := by
  have hbyte := fun j (hj : j < 8) => memRead_memWrite64_byte h pa w hj
  rw [memRead64, hbyte 7 (by omega), hbyte 6 (by omega), hbyte 5 (by omega), hbyte 4 (by omega), hbyte 3 (by omega),
    hbyte 2 (by omega), hbyte 1 (by omega), ← Nat.add_zero pa.toNat, hbyte 0 (by omega), bytes_append]

/-- Memories with the same eight bytes from an address hold the same word there. -/
theorem memRead64_congr {m m' : Memory} {a : Nat} (h : ∀ j < 8, memRead m (a + j) = memRead m' (a + j)) :
    memRead64 m a = memRead64 m' a := by
  have hzero : memRead m a = memRead m' a := h 0 (by omega)
  rw [memRead64, memRead64, h 7 (by omega), h 6 (by omega), h 5 (by omega), h 4 (by omega), h 3 (by omega),
    h 2 (by omega), h 1 (by omega), hzero]

theorem memRead64_memWrite64_of_disjoint {m : Memory} (h : Memory.wf m) {pa : Word} (w : Word) {a : Nat}
    (hdisjoint : a + 8 ≤ pa.toNat ∨ pa.toNat + 8 ≤ a) : memRead64 (memWrite64 m pa w) a = memRead64 m a :=
  memRead64_congr fun j hj => by rw [memRead_memWrite64 h, if_neg (by omega)]

/-- An address that is not listed reads as an unlisted byte. -/
theorem memRead_of_not_listed {m : Memory} {a : Nat} (h : ∀ c ∈ m, c.1 ≠ a) : memRead m a = unlistedByte := by
  induction m with
  | nil => rfl
  | cons c m ih =>
    obtain ⟨hc, hm⟩ := List.forall_mem_cons.1 h
    rw [memRead, if_neg hc.symm, ih hm]

/-- Eight unlisted bytes are the word 0. -/
theorem memRead64_of_not_listed {m : Memory} {a : Nat} (h : ∀ c ∈ m, c.1 < a) : memRead64 m a = 0 := by
  have hempty : memRead64 m a = memRead64 [] a := memRead64_congr fun j _ =>
    memRead_of_not_listed fun c hc => by have := h c hc; omega
  rw [hempty]
  simp only [memRead64, memRead, unlistedByte]
  decide

/-! ## The words of an image -/

/-- Word `i` of the page at `4096 * k`, or nothing where the image has no such page. -/
def pageWord (im : Image) (k : Nat) (i : Index) : Option Word := imageWord im (entryAddr (pageAddr k) i)

theorem pageAddr_mem_pageAddrs {k n : Nat} (h : k < n) : pageAddr k ∈ pageAddrs n :=
  List.mem_map_of_mem (List.mem_range.2 h)

/-- Word `i` of a page stands within the page, wherever the page is. -/
theorem entryAddr_pageAddr (k : Nat) (i : Index) :
    (entryAddr (pageAddr k) i).toNat = (pageAddr k).toNat + 8 * i.toNat :=
  entryAddr_toNat (toNat_add_le_of_mem_pageAddrs (pageAddr_mem_pageAddrs (Nat.lt_succ_self k))) i

theorem entryAddr_toNat_of_lt {k : Nat} (h : k < 2 ^ 52) (i : Index) :
    (entryAddr (pageAddr k) i).toNat = 4096 * k + 8 * i.toNat := by
  rw [entryAddr_pageAddr, pageAddr_toNat h]

/-- Image and byte addresses: an image of consecutive pages from 0 holds the addresses below its end. -/
theorem inImage_pageAddrs {im : Image} {n : Nat} (him : im.pages = pageAddrs n) (hn : n ≤ 2 ^ 52) {a : Nat} :
    inImage im a = true ↔ a < 4096 * n := by
  rw [inImage_iff, him]
  constructor
  · rintro ⟨p, hp, -, hhi⟩
    obtain ⟨k, hk, rfl⟩ := List.mem_map.1 hp
    rw [List.mem_range] at hk
    have hpage : (pageAddr k).toNat = 4096 * k := pageAddr_toNat (by omega)
    simp only [pageAddr] at hpage
    omega
  · intro ha
    have hpage : (pageAddr (a / 4096)).toNat = 4096 * (a / 4096) := pageAddr_toNat (by omega)
    exact ⟨pageAddr (a / 4096), pageAddr_mem_pageAddrs (by omega), by omega, by omega⟩

/-- The counter of a COMMIT stands at the page that its next request allocates (R133). -/
theorem runOk_next {c : CommitRun} (hc : RunOk c) : c.next = pageAddr c.nreq := hc.next_eq

theorem pageWord_of_lt {c : CommitRun} (hc : RunOk c) (hbound : c.nreq ≤ 2 ^ 52) {k : Nat} (hk : k < c.nreq)
    (i : Index) : pageWord c.image k i = some (memRead64 c.image.bytes (4096 * k + 8 * i.toNat)) := by
  have hi : i.toNat < 512 := i.isLt
  rw [pageWord, imageWord, entryAddr_toNat_of_lt (by omega),
    (inImage_pageAddrs hc.pages_eq hbound).2 (by omega), (inImage_pageAddrs hc.pages_eq hbound).2 (by omega)]
  rfl

/-- The one rule of storing an entry word: it changes its own slot and no other word of the image. -/
theorem pageWord_storeEntry {c : CommitRun} (hc : RunOk c) (hbound : c.nreq ≤ 2 ^ 52) {k j : Nat} (hk : k < c.nreq)
    (hj : j < c.nreq) (i i' : Index) (w : Word) :
    pageWord (storeEntry c (entryAddr (pageAddr j) i') w).image k i =
      if k = j ∧ i = i' then some w else pageWord c.image k i := by
  have hstored : RunOk (storeEntry c (entryAddr (pageAddr j) i') w) :=
    runOk_storeEntry hc (hc.pages_eq ▸ pageAddr_mem_pageAddrs hj) i' w
  have haddr := entryAddr_toNat_of_lt (k := j) (by omega) i'
  rw [pageWord_of_lt hstored hbound hk, storeEntry_bytes]
  split
  case isTrue hsame =>
    obtain ⟨rfl, rfl⟩ := hsame
    rw [← haddr, memRead64_memWrite64_same hc.bytes_wf]
  case isFalse hne =>
    have hi : i.toNat < 512 := i.isLt
    have hi' : i'.toNat < 512 := i'.isLt
    have hslots : k ≠ j ∨ i.toNat ≠ i'.toNat := by
      rw [← not_and_or, BitVec.toNat_inj]
      exact hne
    rw [memRead64_memWrite64_of_disjoint hc.bytes_wf w (by omega), pageWord_of_lt hc hbound hk]

/-- A granted page changes no word of the pages before it. -/
theorem pageWord_grantPage {c : CommitRun} (hc : RunOk c) (hbound : c.nreq < 2 ^ 52) {k : Nat} (hk : k < c.nreq)
    (i : Index) : pageWord (grantPage c).image k i = pageWord c.image k i := by
  have hk' : k < (grantPage c).nreq := Nat.lt_succ_of_lt hk
  rw [pageWord_of_lt (runOk_grantPage hc) hbound hk', pageWord_of_lt hc (Nat.le_of_lt hbound) hk]
  rfl

/-- A granted page is all zeros (R143). -/
theorem pageWord_grantPage_same {c : CommitRun} (hc : RunOk c) (hbound : c.nreq < 2 ^ 52) (i : Index) :
    pageWord (grantPage c).image c.nreq i = some 0 := by
  rw [pageWord_of_lt (runOk_grantPage hc) hbound (Nat.lt_succ_self _)]
  refine congrArg some (memRead64_of_not_listed fun b hb => ?_)
  have hin := (inImage_pageAddrs hc.pages_eq (Nat.le_of_lt hbound)).1 (hc.bytes_in b hb)
  omega

/-! ## What the pages of a subtree hold -/

/-- The pages that a reader of an image finds, as words: page number and slot, to the word there. -/
abbrev PageWords := Nat → Index → Option Word

/-- Page `k` holds the leaf words of the slots (R138), and 0 in the empty ones (R143). -/
def LaidLeaves (e : PageWords) (k : Nat) (xs : Slots Leaf) : Prop :=
  ∀ i, e k i = some (((slotGet xs i).map fun l => l.addr ||| l.flags).getD 0)

/-- Page `k` holds the entry words of the children in the slots (R137), and 0 in the empty ones (R143). The children's
subtrees, of `size` pages each, stand one after another from page `k + 1` on (R133), and each is `laid` there. -/
structure LaidPage {α : Type} (laid : PageWords → Nat → Node α → Prop) (size : Node α → Nat) (e : PageWords) (k : Nat)
    (xs : Slots (Node α)) : Prop where
  word : ∀ i, e k i = some (((slotGet xs i).map fun n => pageAddr (k + 1 + sizeBefore size xs i) ||| n.flags).getD 0)
  below : ∀ i n, slotGet xs i = some n → laid e (k + 1 + sizeBefore size xs i) n

/-- A PT node from page `k` on. -/
def LaidPt (e : PageWords) (k : Nat) (n : PtNode) : Prop := LaidLeaves e k n.slots

/-- A PD node's subtree from page `k` on. -/
def LaidPd (e : PageWords) (k : Nat) (n : PdNode) : Prop := LaidPage LaidPt (fun _ => 1) e k n.slots

/-- A PDPT node's subtree from page `k` on. -/
def LaidPdpt (e : PageWords) (k : Nat) (n : PdptNode) : Prop := LaidPage LaidPd pdPages e k n.slots

/-- The whole tree, from the root's page 0 on (R134). -/
def LaidTree (e : PageWords) (r : Root) : Prop := LaidPage LaidPdpt pdptPages e 0 r.slots

/-! ## COMMIT lays the pages -/

/-- The words of page `k` after the leaves' words are stored into page `j`. -/
theorem pageWord_commitLeaves {xs : Slots Leaf} {j : Nat} {c : CommitRun} (hr : risingSlots xs = true) (hc : RunOk c)
    (hbound : c.nreq ≤ 2 ^ 52) (hj : j < c.nreq) {k : Nat} (hk : k < c.nreq) (i : Index) :
    pageWord (commitLeaves (pageAddr j) xs c).image k i =
      if k = j then ((slotGet xs i).map fun l => l.addr ||| l.flags).or (pageWord c.image k i)
      else pageWord c.image k i := by
  induction xs generalizing c with
  | nil => simp [commitLeaves]
  | cons e xs ih =>
    obtain ⟨i', l⟩ := e
    obtain ⟨habove, hrest⟩ := (risingSlots_cons i' l xs).1 hr
    have hstored : RunOk (storeEntry c (entryAddr (pageAddr j) i') (entryWord l.addr l.flags)) :=
      runOk_storeEntry hc (hc.pages_eq ▸ pageAddr_mem_pageAddrs hj) i' _
    rw [commitLeaves, ih hrest hstored hbound hj hk, pageWord_storeEntry hc hbound hk hj]
    by_cases hkj : k = j
    · by_cases hi : i = i'
      · subst hi
        have hnone : slotGet xs i = none := Option.eq_none_iff_forall_ne_some.2 fun d hd =>
          absurd (habove _ (mem_of_slotGet hd)) (Nat.lt_irrefl _)
        simp [hkj, hnone, slotGet, entryWord]
      · simp [hkj, hi, slotGet]
    · simp [hkj]

/-- From the variables `c` to `d` a COMMIT leaves the pages it had alone, and the pages it allocates are `laid` for
every reader who finds them as they are in `d`. -/
structure Lays (c d : CommitRun) (laid : PageWords → Prop) : Prop where
  frame : ∀ k < c.nreq, ∀ i, pageWord d.image k i = pageWord c.image k i
  laid : ∀ e : PageWords, (∀ k, c.nreq ≤ k → k < d.nreq → ∀ i, e k i = pageWord d.image k i) → laid e

/-- A subtree's COMMIT that succeeds takes its top's page first, and lays the subtree from that page on. -/
structure CommitLays {α : Type} (child : Node α → CommitRun → Except Nat (Word × CommitRun)) (ok : Node α → Bool)
    (size : Node α → Nat) (laid : PageWords → Nat → Node α → Prop) : Prop where
  keeps : CommitKeeps child
  counts : CommitCounts child size
  top : ∀ {n c pa d}, child n c = .ok (pa, d) → pa = c.next
  lays : ∀ {n c pa d}, child n c = .ok (pa, d) → ok n = true → RunOk c → d.nreq ≤ 2 ^ 52 →
    Lays c d fun e => laid e c.nreq n

section
variable {α : Type} {child : Node α → CommitRun → Except Nat (Word × CommitRun)} {ok : Node α → Bool}
  {size : Node α → Nat} {laid : PageWords → Nat → Node α → Prop} {xs : Slots (Node α)} {j : Nat} {c d : CommitRun}

/-- One child of a node whose page is page `j`: `c'` are the variables after the child's subtree, which starts at the
page of the request `c.nreq`; then comes the child's entry word, and then the other children (R135, R137). -/
structure ChildStep (child : Node α → CommitRun → Except Nat (Word × CommitRun)) (size : Node α → Nat) (j : Nat)
    (e : Index × Node α) (xs : Slots (Node α)) (c c' d : CommitRun) : Prop where
  head : child e.2 c = .ok (pageAddr c.nreq, c')
  runOk : RunOk c'
  nreq : c'.nreq = c.nreq + size e.2
  rest : commitChildren child (pageAddr j) xs
    (storeEntry c' (entryAddr (pageAddr j) e.1) (pageAddr c.nreq ||| e.2.flags)) = .ok d
  restOk : RunOk (storeEntry c' (entryAddr (pageAddr j) e.1) (pageAddr c.nreq ||| e.2.flags))
  le : c'.nreq ≤ d.nreq

theorem commitChildren_step (hchild : CommitLays child ok size laid) {e : Index × Node α}
    (h : commitChildren child (pageAddr j) (e :: xs) c = .ok d) (hc : RunOk c) (hj : j < c.nreq) :
    ∃ c', ChildStep child size j e xs c c' d := by
  obtain ⟨pa, c', hhead, hrest⟩ := commitChildren_cons_ok h
  obtain rfl : pa = pageAddr c.nreq := (hchild.top hhead).trans (runOk_next hc)
  obtain ⟨hc', hle⟩ := hchild.keeps _ _ _ _ hhead hc
  have hp : pageAddr j ∈ c'.image.pages := hc'.pages_eq ▸ pageAddr_mem_pageAddrs (Nat.lt_of_lt_of_le hj hle)
  have hstored := runOk_storeEntry hc' hp e.1 (pageAddr c.nreq ||| e.2.flags)
  exact ⟨c', hhead, hc', hchild.counts _ _ _ _ hhead, hrest, hstored,
    (commitChildren_keeps hchild.keeps hrest hstored hp).2⟩

/-- The words of the pages that stood before the children of the node with page `j`, after them: in page `j` the
children's entry words are new, and nothing else is. -/
theorem pageWord_commitChildren (hchild : CommitLays child ok size laid)
    (h : commitChildren child (pageAddr j) xs c = .ok d) (hr : risingSlots xs = true)
    (hok : ∀ e ∈ xs, ok e.2 = true) (hc : RunOk c) (hbound : d.nreq ≤ 2 ^ 52) (hj : j < c.nreq) {k : Nat}
    (hk : k < c.nreq) (i : Index) :
    pageWord d.image k i =
      if k = j then ((slotGet xs i).map fun n => pageAddr (c.nreq + sizeBefore size xs i) ||| n.flags).or
        (pageWord c.image k i)
      else pageWord c.image k i := by
  induction xs generalizing c with
  | nil => cases h; simp
  | cons e xs ih =>
    obtain ⟨c', hstep⟩ := commitChildren_step hchild h hc hj
    obtain ⟨habove, hrest⟩ := (risingSlots_cons e.1 e.2 xs).1 hr
    obtain ⟨hokHead, hokRest⟩ := List.forall_mem_cons.1 hok
    have hnreq := hstep.nreq
    have hbound' : c'.nreq ≤ 2 ^ 52 := Nat.le_trans hstep.le hbound
    have hjle : j < c'.nreq := by omega
    have hkle : k < c'.nreq := by omega
    rw [ih hstep.rest hrest hokRest hstep.restOk hjle hkle, pageWord_storeEntry hstep.runOk hbound' hkle hjle,
      (hchild.lays hstep.head hokHead hc hbound').frame k hk, storeEntry_nreq, hnreq]
    obtain ⟨i', n⟩ := e
    by_cases hkj : k = j
    · by_cases hi : i = i'
      · subst hi
        have hnone : slotGet xs i = none := Option.eq_none_iff_forall_ne_some.2 fun d hd =>
          absurd (habove _ (mem_of_slotGet hd)) (Nat.lt_irrefl _)
        simp [hkj, hnone, slotGet, sizeBefore]
      · simp [hkj, hi, slotGet, sizeBefore, Nat.add_assoc]
    · simp [hkj]

/-- The children's subtrees, one after another. -/
theorem laid_commitChildren (hchild : CommitLays child ok size laid)
    (h : commitChildren child (pageAddr j) xs c = .ok d) (hr : risingSlots xs = true)
    (hok : ∀ e ∈ xs, ok e.2 = true) (hc : RunOk c) (hbound : d.nreq ≤ 2 ^ 52) (hj : j < c.nreq) {e : PageWords}
    (he : ∀ k, c.nreq ≤ k → k < d.nreq → ∀ i, e k i = pageWord d.image k i) {i : Index} {n : Node α}
    (hn : slotGet xs i = some n) : laid e (c.nreq + sizeBefore size xs i) n := by
  induction xs generalizing c with
  | nil => cases hn
  | cons x xs ih =>
    obtain ⟨c', hstep⟩ := commitChildren_step hchild h hc hj
    obtain ⟨-, hrest⟩ := (risingSlots_cons x.1 x.2 xs).1 hr
    obtain ⟨hokHead, hokRest⟩ := List.forall_mem_cons.1 hok
    have hnreq := hstep.nreq
    have hle := hstep.le
    have hbound' : c'.nreq ≤ 2 ^ 52 := Nat.le_trans hle hbound
    have hj' : j < c'.nreq := by omega
    obtain ⟨i', m⟩ := x
    by_cases hi : i = i'
    · subst hi
      obtain rfl : m = n := by simpa [slotGet] using hn
      have hlaid : laid e c.nreq m := (hchild.lays hstep.head hokHead hc hbound').laid e fun k hlo hhi i'' => by
        rw [he k hlo (by omega), pageWord_commitChildren hchild hstep.rest hrest hokRest hstep.restOk hbound hj' hhi,
          if_neg (by omega), pageWord_storeEntry hstep.runOk hbound' hhi hj', if_neg (by omega)]
      simpa [sizeBefore] using hlaid
    · have htail := ih hstep.rest hrest hokRest hstep.restOk hj'
        (fun k hlo hhi => he k (by simp only [storeEntry_nreq] at hlo; omega) hhi) (by simpa [slotGet, hi] using hn)
      simpa [sizeBefore, hi, hnreq, Nat.add_assoc] using htail

/-- A page-bearing node gets the page at the counter (R133, R135). -/
theorem page_of_commitPage {a : Alloc} {pa : Word} (h : commitPage a child xs c = .ok (pa, d)) : pa = c.next := by
  obtain ⟨-, hpa, -⟩ := commitPage_ok h
  exact hpa

/-- A page-bearing node with children that bear pages: its own page and theirs. -/
theorem lays_commitPage (hchild : CommitLays child ok size laid) {a : Alloc} {pa : Word}
    (h : commitPage a child xs c = .ok (pa, d)) (hr : risingSlots xs = true) (hok : ∀ e ∈ xs, ok e.2 = true)
    (hc : RunOk c) (hbound : d.nreq ≤ 2 ^ 52) : Lays c d fun e => LaidPage laid size e c.nreq xs := by
  obtain ⟨-, -, hall⟩ := commitPage_ok h
  have hchildren : commitChildren child c.next xs (grantPage c) = .ok d := hall
  rw [runOk_next hc] at hchildren
  have hgrant := runOk_grantPage hc
  have hself : c.nreq < (grantPage c).nreq := Nat.lt_succ_self _
  have hle : (grantPage c).nreq ≤ d.nreq :=
    (commitChildren_keeps hchild.keeps hchildren hgrant (runOk_next hc ▸ next_mem_grantPage c)).2
  have hlt : c.nreq < 2 ^ 52 := by omega
  refine ⟨fun k hk i => ?frame, fun e he => ⟨fun i => ?word, fun i n hn => ?below⟩⟩
  case frame =>
    rw [pageWord_commitChildren hchild hchildren hr hok hgrant hbound hself (Nat.lt_trans hk hself),
      if_neg (Nat.ne_of_lt hk)]
    exact pageWord_grantPage hc hlt hk i
  case word =>
    have hzero : pageWord (grantPage c).image c.nreq i = some 0 := pageWord_grantPage_same hc hlt i
    rw [he _ (Nat.le_refl _) (Nat.lt_of_lt_of_le hself hle),
      pageWord_commitChildren hchild hchildren hr hok hgrant hbound hself hself, if_pos rfl]
    cases slotGet xs i with
    | none => exact hzero
    | some n => rfl
  case below =>
    exact laid_commitChildren hchild hchildren hr hok hgrant hbound hself
      (fun k hlo hhi => he k (Nat.le_of_succ_le hlo) hhi) hn

end

theorem commitPt_lays (a : Alloc) : CommitLays (commitPt a) ptOk (fun _ => 1) LaidPt where
  keeps := commitPt_keeps a
  counts := commitPt_counts a
  top h := by
    obtain ⟨-, hpa, -⟩ := commitPt_ok h
    exact hpa
  lays := by
    intro n c pa d h hok hc hbound
    obtain ⟨-, -, hd⟩ := commitPt_ok h
    have hleaves : d = commitLeaves c.next n.slots (grantPage c) := hd
    rw [runOk_next hc] at hleaves
    have hnreq : d.nreq = (grantPage c).nreq := by rw [hleaves, commitLeaves_nreq]
    have hself : c.nreq < (grantPage c).nreq := Nat.lt_succ_self _
    have hlt : c.nreq < 2 ^ 52 := by omega
    have hgrant : (grantPage c).nreq ≤ 2 ^ 52 := by omega
    refine ⟨fun k hk i => ?frame, fun e he i => ?word⟩
    case frame =>
      rw [hleaves, pageWord_commitLeaves (nodeOk_rising hok) (runOk_grantPage hc) hgrant hself (Nat.lt_trans hk hself),
        if_neg (Nat.ne_of_lt hk)]
      exact pageWord_grantPage hc hlt hk i
    case word =>
      have hzero : pageWord (grantPage c).image c.nreq i = some 0 := pageWord_grantPage_same hc hlt i
      rw [he _ (Nat.le_refl _) (by omega), hleaves,
        pageWord_commitLeaves (nodeOk_rising hok) (runOk_grantPage hc) hgrant hself hself, if_pos rfl, hzero]
      cases slotGet n.slots i <;> rfl

theorem commitPd_lays (a : Alloc) : CommitLays (commitPd a) pdOk pdPages LaidPd where
  keeps := commitPd_keeps a
  counts := commitPd_counts a
  top := page_of_commitPage
  lays h hok := lays_commitPage (commitPt_lays a) h (nodeOk_rising hok) fun _ he => nodeOk_child hok he

theorem commitPdpt_lays (a : Alloc) : CommitLays (commitPdpt a) pdptOk pdptPages LaidPdpt where
  keeps := commitPdpt_keeps a
  counts := commitPdpt_counts a
  top := page_of_commitPage
  lays h hok := lays_commitPage (commitPd_lays a) h (nodeOk_rising hok) fun _ he => nodeOk_child hok he

/-- The image of a COMMIT of a well-formed tree lays the tree out from the root's page 0 on. -/
theorem laidTree_commitTree {a : Alloc} {r : Root} {pa : Word} {c : CommitRun} (hr : rootOk r = true)
    (h : commitTree a r = .ok (pa, c)) : LaidTree (pageWord c.image) r := by
  obtain ⟨hrising, hok⟩ := rootOk_iff.1 hr
  have hbound : c.nreq ≤ 2 ^ 52 := commitTree_counts h ▸ pageCount_le_pow hr
  exact (lays_commitPage (commitPdpt_lays a) h hrising hok startRun_ok hbound).laid _ fun _ _ _ _ => rfl

/-! ## The rank of a node is the page it is laid at (R133) -/

section
variable {r : Root} (h : rootOk r = true)
include h

theorem rankOf_pdpt {i4 : Index} {n : PdptNode} (hn : pdptAt r i4 = some n) (q : List Index) :
    rankOf r (i4 :: q) = 0 + 1 + sizeBefore pdptPages r.slots i4 + rankIn (pdptPaths n) q := by
  rw [rankOf_eq, rankIn_pathsFrom_cons (rootOk_iff.1 h).1 hn, funext length_pdptPaths, Nat.zero_add]

theorem rankOf_pd {i4 i3 : Index} {n : PdptNode} (hn : pdptAt r i4 = some n) {m : PdNode}
    (hm : pdAt r i4 i3 = some m) (q : List Index) : rankOf r (i4 :: i3 :: q) =
      rankOf r [i4] + 1 + sizeBefore pdPages n.slots i3 + rankIn (pdPaths m) q := by
  have hslot : slotGet n.slots i3 = some m := (pdAt_eq_slotGet hn i3).symm.trans hm
  rw [rankOf_pdpt h hn, rankOf_pdpt h hn, pdptPaths, rankIn_pathsFrom_nil,
    rankIn_pathsFrom_cons (nodeOk_rising (pdptOk_of_pdptAt h hn)) hslot, funext length_pdPaths]
  omega

theorem rankOf_pt {i4 i3 i2 : Index} {n : PdNode} (hn : pdAt r i4 i3 = some n) {m : PtNode}
    (hm : ptAt r i4 i3 i2 = some m) :
    rankOf r [i4, i3, i2] = rankOf r [i4, i3] + 1 + sizeBefore (fun _ => 1) n.slots i2 := by
  obtain ⟨top, htop, -⟩ := Option.bind_eq_some_iff.1 hn
  have hslot : slotGet n.slots i2 = some m := (ptAt_eq_slotGet hn i2).symm.trans hm
  rw [rankOf_pd h htop hn, rankOf_pd h htop hn, pdPaths, rankIn_pathsFrom_nil,
    rankIn_pathsFrom_cons (nodeOk_rising (pdOk_of_pdAt h hn)) hslot]
  simp only [ptPaths, List.length_singleton, rankIn, List.not_lt_nil, decide_false, List.filter_false, List.length_nil]
  omega

variable {e : PageWords} (hl : LaidTree e r)
include hl

theorem laid_pdptAt {i4 : Index} {n : PdptNode} (hn : pdptAt r i4 = some n) : LaidPdpt e (rankOf r [i4]) n := by
  rw [rankOf_pdpt h hn, pdptPaths, rankIn_pathsFrom_nil]
  exact hl.below i4 n hn

theorem laid_pdAt {i4 i3 : Index} {n : PdNode} (hn : pdAt r i4 i3 = some n) : LaidPd e (rankOf r [i4, i3]) n := by
  obtain ⟨top, htop, hslot⟩ := Option.bind_eq_some_iff.1 hn
  rw [rankOf_pd h htop hn, pdPaths, rankIn_pathsFrom_nil]
  exact (laid_pdptAt h hl htop).below i3 n hslot

theorem laid_ptAt {i4 i3 i2 : Index} {n : PtNode} (hn : ptAt r i4 i3 i2 = some n) :
    LaidPt e (rankOf r [i4, i3, i2]) n := by
  obtain ⟨top, htop, hslot⟩ := Option.bind_eq_some_iff.1 hn
  rw [rankOf_pt h htop hn]
  exact (laid_pdAt h hl htop).below i2 n hslot

/-- R137 at the root. -/
theorem word_root (i : Index) : e (rankOf r []) i = some (expectedWord r [] i) := by
  have hrank : rankOf r [] = 0 := by rw [rankOf_eq, rankIn_pathsFrom_nil]
  rw [hrank, hl.word, ← pdptAt, expectedWord, pdptFlags]
  cases hm : pdptAt r i with
  | none => rfl
  | some m =>
    rw [Option.map_some, Option.getD_some, pageOf_eq, rankOf_pdpt h hm, pdptPaths, rankIn_pathsFrom_nil]
    rfl

/-- R137 at a PDPT node. -/
theorem word_pdptAt {i4 : Index} {n : PdptNode} (hn : pdptAt r i4 = some n) (i : Index) :
    e (rankOf r [i4]) i = some (expectedWord r [i4] i) := by
  rw [(laid_pdptAt h hl hn).word, ← pdAt_eq_slotGet hn, expectedWord, pdFlags]
  cases hm : pdAt r i4 i with
  | none => rfl
  | some m =>
    rw [Option.map_some, Option.getD_some, pageOf_eq, rankOf_pd h hn hm, pdPaths, rankIn_pathsFrom_nil]
    rfl

/-- R137 at a PD node. -/
theorem word_pdAt {i4 i3 : Index} {n : PdNode} (hn : pdAt r i4 i3 = some n) (i : Index) :
    e (rankOf r [i4, i3]) i = some (expectedWord r [i4, i3] i) := by
  rw [(laid_pdAt h hl hn).word, ← ptAt_eq_slotGet hn, expectedWord, ptFlags]
  cases hm : ptAt r i4 i3 i with
  | none => rfl
  | some m =>
    rw [Option.map_some, Option.getD_some, pageOf_eq, rankOf_pt h hn hm]
    rfl

/-- R138 at a PT node. -/
theorem word_ptAt {i4 i3 i2 : Index} {n : PtNode} (hn : ptAt r i4 i3 i2 = some n) (i : Index) :
    e (rankOf r [i4, i3, i2]) i = some (expectedWord r [i4, i3, i2] i) := by
  rw [laid_ptAt h hl hn i, ← leafAt_eq_slotGet hn, expectedWord]
  cases leafAt r i4 i3 i2 i <;> rfl

/-- The pages of a laid tree hold the word the spec gives each of their slots. -/
theorem word_of_mem_nodePaths {p : List Index} (hp : p ∈ nodePaths r) (i : Index) :
    e (rankOf r p) i = some (expectedWord r p i) := by
  match p with
  | [] => exact word_root h hl i
  | [i4] =>
    obtain ⟨n, hn⟩ := Option.isSome_iff_exists.1 ((pdpt_path_iff h).1 hp)
    exact word_pdptAt h hl hn i
  | [i4, i3] =>
    obtain ⟨n, hn⟩ := Option.isSome_iff_exists.1 ((pd_path_iff h).1 hp)
    exact word_pdAt h hl hn i
  | [i4, i3, i2] =>
    obtain ⟨n, hn⟩ := Option.isSome_iff_exists.1 ((pt_path_iff h).1 hp)
    exact word_ptAt h hl hn i
  | i4 :: i3 :: i2 :: i1 :: q =>
    have hlen := length_le_of_mem_nodePaths h hp
    simp only [List.length_cons] at hlen
    omega

end

/-- Settles O19: the image lays the tree out page by page (`laidTree_commitTree`), and the page a node is laid at is its
rank (`word_of_mem_nodePaths`). -/
theorem commitWritesEveryEntryWord : Obligations.CommitWritesEveryEntryWord := by
  intro s hs hp hall
  have hr := (stateOk_iff.1 hs).1
  obtain ⟨c, hc, -⟩ := commitTree_of_allocAll hall
  have hlaid := laidTree_commitTree hr hc
  exact ⟨c.image, _, exec_commit_ok hp hc, rfl, fun p hpath i => word_of_mem_nodePaths hr hlaid hpath i⟩

end Sys2Proof.Machine

/-! SUPPORT. The four-level walk over a committed image (R150 item 2): level by level it does what TRANSLATE does on the
tree. -/

namespace Sys2Proof.Machine

/-! ## What the tree says of the nodes on a path -/

theorem mem_pdptNodes {r : Root} {i : Index} {n : PdptNode} (h : slotGet r.slots i = some n) : n ∈ pdptNodes r :=
  List.mem_map_of_mem (f := Prod.snd) (mem_of_slotGet h)

/-- A child of a node of one level is a node of the next. -/
theorem mem_flatMap_children {α : Type} {ns : List (Node α)} {n : Node α} (hn : n ∈ ns) {i : Index} {c : α}
    (h : slotGet n.slots i = some c) : c ∈ ns.flatMap fun n => n.slots.map Prod.snd :=
  List.mem_flatMap.2 ⟨n, hn, List.mem_map_of_mem (f := Prod.snd) (mem_of_slotGet h)⟩

theorem leafOk_of_mem {r : Root} (h : rootOk r = true) : ∀ l ∈ leaves r, leafOk l = true :=
  childOk_of_mem_flatMap (ptOk_of_mem h)

theorem toNat_lt_of_leavesFit {r : Root} (h : leavesFit r = true) : ∀ l ∈ leaves r, l.addr.toNat < 2 ^ 52 := by
  simpa [leavesFit] using h

/-! ## One entry word -/

/-- An empty slot's word 0 has no Present, so no request passes it. -/
theorem allow_zero (prot : Prot) : allow 0 prot = false :=
  Bool.eq_false_iff.2 fun h => by simp [allow_iff] at h

/-- The address field has none of the bits that a check reads. -/
theorem allow_addr_or {a : Word} (ha : subFlags a Config.entryAddrMask = true) (f : Flags) (prot : Prot) :
    allow (a ||| f) prot = allow f prot := by
  have hbit {k : Nat} (hk : Config.entryAddrMask.getLsbD k = false) : (a ||| f).getLsbD k = f.getLsbD k := by
    rw [BitVec.getLsbD_or, getLsbD_eq_false_of_sub ha hk, Bool.false_or]
  exact allow_eq_of_sameChecked ⟨hbit (by decide), hbit (by decide), hbit (by decide)⟩ prot

/-- A page that a well-formed image has stands below `2^52`. -/
theorem pageAddr_sub_of_pageWord {im : Image} (him : imageOk im = true) {k : Nat} {i : Index} {w : Word}
    (h : pageWord im k i = some w) : subFlags (pageAddr k) Config.entryAddrMask = true := by
  obtain ⟨hpages, -, hlength, -⟩ := imageOk_iff.1 him
  have hmax : Config.maxPages = 134480385 := by decide
  have hin : inImage im (entryAddr (pageAddr k) i).toNat = true := by
    rw [pageWord, imageWord] at h
    split at h
    case isTrue hboth => exact (Bool.and_eq_true _ _ ▸ hboth).1
    case isFalse => cases h
  rw [inImage_pageAddrs hpages (by omega), entryAddr_pageAddr] at hin
  exact sub_entryAddrMask (pageAddr_sub k) (by omega)

/-! ## One level -/

/-- One level of the walk over an image, at the page at `page`: the entry word of slot `i`, if it passes the check, and
then `next` at the address in it. -/
def imageLevel (im : Image) (prot : Prot) (i : Index) (next : Word → Option Word) (page : Word) : Option Word :=
  (imageEntry im prot page i).bind fun w => next (w &&& Config.entryAddrMask)

theorem imageWalk_eq_levels (im : Image) (rootPa va : Word) (prot : Prot) : imageWalk im rootPa va prot =
    imageLevel im prot (idx4 va) (imageLevel im prot (idx3 va) (imageLevel im prot (idx2 va)
      (imageLevel im prot (idx1 va) fun a => some (resultAddr a va)))) rootPa := rfl

section
variable {α : Type} {im : Image} {prot : Prot} {k : Nat} {i : Index}

/-- One level of the walk over the image, at a page that holds the word `w c` for each child `c` in its slots: it enters
the children that the walk over the tree enters. -/
theorem imageEntry_eq_enter {flagsOf : α → Flags} {xs : Slots α} {w : α → Word}
    (hword : pageWord im k i = some (((slotGet xs i).map w).getD 0))
    (hallow : ∀ c, slotGet xs i = some c → allow (w c) prot = allow (flagsOf c) prot) :
    imageEntry im prot (pageAddr k) i = (enter flagsOf prot xs i).map w := by
  have hread : imageWord im (pageAddr k + 8 * i.setWidth 64) = some (((slotGet xs i).map w).getD 0) := hword
  rw [imageEntry, hread, enter]
  cases hc : slotGet xs i with
  | none =>
    simp only [Option.map_none, Option.getD_none, allow_zero]
    rfl
  | some c =>
    simp only [Option.map_some, Option.getD_some, hallow c hc]
    split <;> rfl

/-- One level of the walk where children bear pages. `next` is the walk over the image from a child's page on, `below`
the walk over the tree from the child on. -/
theorem imageLevel_laidPage {laid : PageWords → Nat → Node α → Prop} {size : Node α → Nat} {xs : Slots (Node α)}
    (hpage : LaidPage laid size (pageWord im) k xs)
    (haddr : ∀ j n, laid (pageWord im) j n → subFlags (pageAddr j) Config.entryAddrMask = true)
    (hflags : ∀ n, slotGet xs i = some n → subFlags n.flags Config.intermediateFlagMask = true)
    {next : Word → Option Word} {below : Node α → Option Leaf} {result : Leaf → Word}
    (hnext : ∀ n j, slotGet xs i = some n → laid (pageWord im) j n → next (pageAddr j) = (below n).map result) :
    imageLevel im prot i next (pageAddr k) = ((enter Node.flags prot xs i).bind below).map result := by
  have hchild n (hn : slotGet xs i = some n) := haddr _ n (hpage.below i n hn)
  rw [imageLevel, imageEntry_eq_enter (flagsOf := Node.flags) (hpage.word i)
      fun n hn => allow_addr_or (hchild n hn) n.flags prot, Option.bind_map, Option.map_bind]
  refine Option.bind_congr fun n hn => ?_
  obtain ⟨hslot, -⟩ := enter_eq_some.1 hn
  have hmask := entryWord_and_entryAddrMask (hchild n hslot) (hflags n hslot) intermediateFlagMask_and_entryAddrMask
  exact (congrArg next hmask).trans (hnext n _ hslot (hpage.below i n hslot))

/-- The last level: the leaf's address comes out of its word. -/
theorem imageLevel_laidLeaves {xs : Slots Leaf} (hpage : LaidLeaves (pageWord im) k xs)
    (hleaf : ∀ l, slotGet xs i = some l →
      subFlags l.addr Config.entryAddrMask = true ∧ subFlags l.flags Config.leafFlagMask = true)
    (result : Word → Word) :
    imageLevel im prot i (fun a => some (result a)) (pageAddr k) =
      (enter Leaf.flags prot xs i).map fun l => result l.addr := by
  rw [imageLevel, imageEntry_eq_enter (flagsOf := Leaf.flags) (hpage i)
      fun l hl => allow_addr_or (hleaf l hl).1 l.flags prot, Option.bind_map, Option.map_eq_bind]
  refine Option.bind_congr fun l hl => ?_
  obtain ⟨hslot, -⟩ := enter_eq_some.1 hl
  obtain ⟨haddr, hflags⟩ := hleaf l hslot
  exact congrArg (fun a => some (result a)) (entryWord_and_entryAddrMask haddr hflags leafFlagMask_and_entryAddrMask)

end

/-! ## The four levels -/

/-- Over an image that lays the tree out, the walk ends where the walk over the tree ends. -/
theorem imageWalk_eq_walk {r : Root} {im : Image} (hr : rootOk r = true) (hfit : leavesFit r = true)
    (him : imageOk im = true) (hl : LaidTree (pageWord im) r) (va : Word) (prot : Prot) :
    imageWalk im 0 va prot = (walk r va prot).map fun l => resultAddr l.addr va := by
  have haddr {α : Type} {laid : PageWords → Nat → Node α → Prop} {size : Node α → Nat} (j : Nat) (xs : Slots (Node α))
      (h : LaidPage laid size (pageWord im) j xs) : subFlags (pageAddr j) Config.entryAddrMask = true :=
    pageAddr_sub_of_pageWord him (h.word 0)
  have hroot : imageWalk im 0 va prot = imageWalk im (pageAddr 0) va prot := rfl
  rw [hroot, imageWalk_eq_levels, walk_eq_bind]
  refine imageLevel_laidPage hl (fun j n h => haddr j n.slots h)
    (fun n h4 => flags_sub_of_nodeOk (pdptOk_of_mem hr n (mem_pdptNodes h4))) fun pdpt j h4 hpdpt => ?_
  have hpdptMem := mem_pdptNodes h4
  refine imageLevel_laidPage hpdpt (fun j n h => haddr j n.slots h)
    (fun n h3 => flags_sub_of_nodeOk (pdOk_of_mem hr n (mem_flatMap_children hpdptMem h3))) fun pd j h3 hpd => ?_
  have hpdMem : pd ∈ pdNodes r := mem_flatMap_children hpdptMem h3
  refine imageLevel_laidPage hpd (fun j n h => pageAddr_sub_of_pageWord him (h 0))
    (fun n h2 => flags_sub_of_nodeOk (ptOk_of_mem hr n (mem_flatMap_children hpdMem h2))) fun pt j h2 hpt => ?_
  have hptMem : pt ∈ ptNodes r := mem_flatMap_children hpdMem h2
  refine imageLevel_laidLeaves hpt (fun l h1 => ?_) fun a => resultAddr a va
  have hlMem : l ∈ leaves r := mem_flatMap_children hptMem h1
  have hok := leafOk_of_mem hr l hlMem
  exact ⟨sub_entryAddrMask (addr_sub_of_leafOk hok) (toNat_lt_of_leavesFit hfit l hlMem), (leafOk_iff.1 hok).2⟩

/-- A TRANSLATE in phase BUILDABLE answers OK with an address exactly when the walk over the tree ends there. -/
theorem exec_translate_ok_iff {s : State} (hp : s.phase = .buildable) {va pa : Word} {prot : Prot} :
    exec (.translate va prot) s = .next { s with responses := .translateOk pa :: s.responses } ↔
      (walk s.root va prot).map (fun l => resultAddr l.addr va) = some pa := by
  rw [exec_translate_buildable va prot hp, Option.map_eq_some_iff, ← translateResponse_eq_ok]
  constructor
  · intro h
    injection h with hnext
    exact (List.cons.inj (congrArg State.responses hnext)).1
  · intro h
    rw [h]
    rfl

/-- Settles O21: the image lays the tree out (`laidTree_commitTree`), so the two walks agree level by level. -/
theorem imageWalkAgreesWithTranslate : Obligations.ImageWalkAgreesWithTranslate := by
  intro s hs hp hfit hall
  have hr := (stateOk_iff.1 hs).1
  obtain ⟨c, hc, -⟩ := commitTree_of_allocAll hall
  refine ⟨c.image, _, exec_commit_ok hp hc, rfl, fun va pa prot => ?_⟩
  rw [imageWalk_eq_walk hr hfit (imageOk_commitTree hr hc) (laidTree_commitTree hr hc), exec_translate_ok_iff hp]

end Sys2Proof.Machine

/-! SUPPORT. The outcomes of the family 60_exceptions.md: every step completes, the CONSUMED check, the statuses each
operation can give, and the rows of the outcome table (R160 to R166, R177). -/

namespace Sys2Proof.Machine

/-! ## Every operation and every step completes (R164, R165, R177) -/

/-- No operation faults and none is refused: what it does is decided by the state it runs in. -/
theorem exec_completes (i : Instr) (s : State) : ∃ t, exec i s = .next t := by
  obtain ⟨_, _, _, _, heffect⟩ := exec_dependsOn i s.phase s.root s.alloc
  exact ⟨_, heffect s rfl rfl rfl⟩

theorem step_idle {s : State} (h : s.inputs = []) : step s = .next s := by
  rw [step, arrival, h, waitForHost_eq]

theorem step_reset {s : State} {rest : List Input} (h : s.inputs = .reset :: rest) :
    step s = .next (hostReset s rest) := by
  rw [step, arrival, h]

/-- Settles O40. -/
theorem engineWaitsForTheHost : Obligations.EngineWaitsForTheHost := fun _ => step_idle

/-- Settles O42: the host's next move is none, reset or a command, and a command's operation completes. -/
theorem everyStepCompletes : Obligations.EveryStepCompletes := by
  intro s
  cases hi : s.inputs with
  | nil => exact ⟨s, step_idle hi⟩
  | cons m rest =>
    cases m with
    | reset => exact ⟨_, step_reset hi⟩
    | command w a =>
      rw [step_command hi]
      exact exec_completes (decode w) (accept s a rest)

/-! ## The CONSUMED check (R163) -/

/-- In phase CONSUMED every operation but INDEX gives status CONSUMED and does nothing else. -/
theorem exec_consumed {i : Instr} {s : State} (hop : opOf i ≠ 0b00) (hp : s.phase = .consumed) :
    exec i s = .next (respond s .consumed) := by
  cases i with
  | index va => exact absurd rfl hop
  | insert va pa f => rw [exec_insert, treeCommand_consumed hp]
  | translate va prot => rw [exec_translate, hp, translateAnswer]
  | commit => exact exec_commit_consumed hp

/-- Settles O29: `exec_consumed` for the three tree operations, and INDEX, which checks no phase. -/
theorem treeCommandsAnswerConsumed : Obligations.TreeCommandsAnswerConsumed := by
  intro s hp
  refine ⟨fun va pa f => ?_, fun va prot => ?_, ?_, fun va => ⟨_, rfl, exec_index va s⟩⟩
  · exact exec_consumed (i := .insert va pa f) (by simp [opOf]) hp
  · exact exec_consumed (i := .translate va prot) (by simp [opOf]) hp
  · exact exec_consumed (i := .commit) (by simp [opOf]) hp

/-! ## The statuses an operation can give (R160) -/

/-- The operation and the phase that a status asks for: MISS is a TRANSLATE's, ALLOC_FAIL a COMMIT's, and CONSUMED that of
any operation but INDEX in phase CONSUMED. -/
def StatusPossible (i : Instr) (ph : Phase) : Status → Prop
  | .ok => True
  | .miss => opOf i = 0b10
  | .allocFail => opOf i = 0b11
  | .consumed => opOf i ≠ 0b00 ∧ ph = .consumed

/-- In phase BUILDABLE a TRANSLATE answers OK or MISS. -/
theorem responseStatus_translateResponse (r : Root) (va : Word) (prot : Prot) :
    responseStatus (translateResponse r va prot) = .ok ∨ responseStatus (translateResponse r va prot) = .miss := by
  unfold translateResponse
  cases walk r va prot with
  | none => exact .inr rfl
  | some l => exact .inl rfl

/-- Every operation gives exactly one response, with a status that is possible for it. -/
theorem Effect.status_possible {i : Instr} {s t : State} (h : Effect s i t) :
    ∃ r, t.responses = r :: s.responses ∧ StatusPossible i s.phase (responseStatus r) := by
  cases h with
  | index | insert | commitSucceeds => exact ⟨_, rfl, trivial⟩
  | refusedConsumed i hop hp => exact ⟨_, rfl, hop, hp⟩
  | translate va prot hp =>
    refine ⟨_, rfl, ?_⟩
    rcases responseStatus_translateResponse s.root va prot with hok | hmiss
    · rw [hok]; trivial
    · rw [hmiss]; rfl
  | commitFails k hp hc => exact ⟨_, rfl, rfl⟩

/-- Settles O31: the codes are the definition's, and `Effect.status_possible` says which operation gives which status. -/
theorem statusCodesAndTheirOperations : Obligations.StatusCodesAndTheirOperations := by
  refine ⟨⟨rfl, rfl, rfl, rfl⟩, fun i s t h => ?_⟩
  obtain ⟨r, hresponses, hpossible⟩ := (exec_effect h).status_possible
  exact ⟨r, hresponses, fun hst => by rwa [hst] at hpossible, fun hst => by rwa [hst] at hpossible,
    fun hst => by rwa [hst] at hpossible⟩

/-! ## The rows of the outcome table (R166) -/

theorem outcomeRow_index (va : Word) (s : State) :
    outcomeRow (.index va) s (.indexOk (idx4 va) (idx3 va) (idx2 va) (idx1 va) (off va))
      (respond s (.indexOk (idx4 va) (idx3 va) (idx2 va) (idx1 va) (off va))) := by
  refine ⟨?_, rfl⟩
  rw [idx4_eq_extractLsb', idx3_eq_extractLsb', idx2_eq_extractLsb', idx1_eq_extractLsb', off_eq_extractLsb']

/-- The rows of INSERT, TRANSLATE and COMMIT in phase CONSUMED. -/
theorem outcomeRow_consumed {i : Instr} {s : State} (hop : opOf i ≠ 0b00) (hp : s.phase = .consumed) :
    outcomeRow i s .consumed (respond s .consumed) := by
  cases i with
  | index va => exact absurd rfl hop
  | insert | translate | commit =>
    simp only [outcomeRow, hp, true_and]
    rw [← hp]
    rfl

theorem outcomeRow_insert (va pa f : Word) {s : State} (hp : s.phase = .buildable) :
    outcomeRow (.insert va pa f) s .insertOk (respond (setRoot s (insertTree s.root va pa f)) .insertOk) := by
  simp only [outcomeRow, hp]
  refine ⟨trivial, insertedInto_insertTree s.root va pa f, ?_⟩
  rw [← hp]
  rfl

/-- The walk ends at a leaf exactly when every level of an occupied path allows the request. -/
theorem allowedPath_iff_walk {r : Root} {va : Word} {prot : Prot} :
    allowedPath r va prot ↔ ∃ l, walk r va prot = some l := by
  simp only [walk_eq_some_iff_path, forall_mem_levelFlags]
  constructor
  · rintro ⟨pdpt, pd, pt, l, h4, h3, h2, h1, hallow⟩
    exact ⟨l, pdpt, pd, pt, ⟨h4, h3, h2, h1⟩, hallow⟩
  · rintro ⟨l, pdpt, pd, pt, ⟨h4, h3, h2, h1⟩, hallow⟩
    exact ⟨pdpt, pd, pt, l, h4, h3, h2, h1, hallow⟩

theorem outcomeRow_translate (va : Word) (prot : Prot) {s : State} (hp : s.phase = .buildable) :
    outcomeRow (.translate va prot) s (translateResponse s.root va prot)
      (respond s (translateResponse s.root va prot)) := by
  simp only [outcomeRow, hp, allowedPath_iff_walk]
  refine ⟨?state, ?found, fun hdenied => ?miss⟩
  case state =>
    rw [← hp]
    rfl
  case found =>
    rintro ⟨l, hwalk⟩
    refine ⟨l, leafAt_of_walk hwalk, ?_⟩
    rw [← off_eq_extractLsb']
    exact translateResponse_eq_ok.2 ⟨l, hwalk, rfl⟩
  case miss =>
    have hnone : walk s.root va prot = none :=
      Option.eq_none_iff_forall_ne_some.2 fun l hwalk => hdenied ⟨l, hwalk⟩
    rw [translateResponse, hnone]

theorem outcomeRow_commit_ok {s : State} {pa : Word} {c : CommitRun} (hp : s.phase = .buildable)
    (hc : commitTree s.alloc s.root = .ok (pa, c)) :
    outcomeRow .commit s (.commitOk pa c.image)
      (respond (countRequests (consumeTree s) c.nreq) (.commitOk pa c.image)) := by
  simp only [outcomeRow, hp]
  obtain ⟨rfl, -⟩ := commitTree_ok hc
  refine ⟨rfl, fun _ => ⟨⟨c.image, rfl⟩, ?_⟩, fun hdenied => absurd (allocAll_of_commitTree hc) hdenied⟩
  rw [← commitTree_counts hc]
  rfl

theorem outcomeRow_commit_fails {s : State} {q : Nat} (hp : s.phase = .buildable)
    (hc : commitTree s.alloc s.root = .error q) :
    outcomeRow .commit s .allocFail (respond (countRequests (consumeTree s) q) .allocFail) := by
  simp only [outcomeRow, hp]
  obtain ⟨k, rfl, hk, hfails⟩ := commitTree_fails hc
  refine ⟨rfl, fun hall => ?_, fun _ => ⟨trivial, k, hk, hfails, rfl⟩⟩
  exact absurd (hall k hk) (by simp [hfails.1])

/-- What an operation can do to the state is in its row of the table. -/
theorem Effect.in_outcomeTable {i : Instr} {s t : State} (h : Effect s i t) : ∃ r, outcomeRow i s r t := by
  cases h with
  | index va => exact ⟨_, outcomeRow_index va s⟩
  | refusedConsumed i hop hp => exact ⟨_, outcomeRow_consumed hop hp⟩
  | insert va pa f hp => exact ⟨_, outcomeRow_insert va pa f hp⟩
  | translate va prot hp => exact ⟨_, outcomeRow_translate va prot hp⟩
  | commitFails k hp hc => exact ⟨_, outcomeRow_commit_fails hp hc⟩
  | commitSucceeds rootPa c hp hc => exact ⟨_, outcomeRow_commit_ok hp hc⟩

/-- Settles O30: an operation completes, and each case of its effect is a row of the table. -/
theorem outcomeTableHolds : Obligations.OutcomeTableHolds := by
  intro i s
  obtain ⟨t, h⟩ := exec_completes i s
  obtain ⟨r, hrow⟩ := (exec_effect h).in_outcomeTable
  exact ⟨r, t, h, hrow⟩

end Sys2Proof.Machine

/-! SUPPORT. Reset and the hazards of the family 70_reset_and_hazards.md: what a step leaves of the responses, and the host
that uses the engine properly (R180, R183, R186, R189, R190). -/

namespace Sys2Proof.Machine

/-! ## Reset (R180) -/

/-- Settles O39: the state of `step_reset` is `hostReset`'s, field by field. -/
theorem resetGivesTheEmptyTree : Obligations.ResetGivesTheEmptyTree := fun _ _ => step_reset

/-! ## What was handed over (R183, R186) -/

/-- Settles O36: waiting and reset give no response, and a command gives the one of `Effect.status_possible`. -/
theorem imagesHandedOverAreNeverTouched : Obligations.ImagesHandedOverAreNeverTouched := by
  intro s t h
  rcases step_cases h with ⟨-, rfl⟩ | ⟨rest, -, rfl⟩ | ⟨w, a, rest, -, h⟩
  · exact ⟨[], rfl, Nat.zero_le 1⟩
  · exact ⟨[], rfl, Nat.zero_le 1⟩
  · obtain ⟨r, hresponses, -⟩ := (exec_effect h).status_possible
    exact ⟨[r], hresponses, Nat.le_refl 1⟩

/-! ## Proper use (R189, R190, U2) -/

/-- The phase in which a command leaves the engine (R18, R131). -/
def phaseAfter : Instr → Phase → Phase
  | .commit, _ => .consumed
  | _, ph => ph

theorem phaseAfter_consumed (i : Instr) : phaseAfter i .consumed = .consumed := by
  cases i <;> rfl

theorem Effect.phase_eq {i : Instr} {s t : State} (h : Effect s i t) : t.phase = phaseAfter i s.phase := by
  cases h with
  | index | insert | translate | commitFails | commitSucceeds => rfl
  | refusedConsumed i hop hp => rw [respond_phase, hp, phaseAfter_consumed]

/-- No operation reads or changes what the host issues next. -/
theorem Effect.inputs_eq {i : Instr} {s t : State} (h : Effect s i t) : t.inputs = s.inputs := by
  cases h <;> rfl

theorem properUse_reset (ph : Phase) (rest : List Input) :
    properUse ph (.reset :: rest) = properUse .buildable rest := rfl

/-- A command is proper use when it is INDEX or comes in phase BUILDABLE, and what follows it is proper use. -/
theorem properUse_command {ph : Phase} {w : CmdWord} {a : Alloc} {rest : List Input} :
    properUse ph (.command w a :: rest) = true ↔
      (opOf (decode w) ≠ 0b00 → ph = .buildable) ∧ properUse (phaseAfter (decode w) ph) rest = true := by
  rw [properUse]
  cases decode w <;> simp [opOf, phaseAfter]

/-- From `s` to `t` the engine has only added responses, none of them with status CONSUMED. -/
def AnswersWithoutConsumed (s t : State) : Prop :=
  ∃ new : List Response, t.responses = new ++ s.responses ∧ Response.consumed ∉ new

theorem AnswersWithoutConsumed.of_eq {s t : State} (h : t.responses = s.responses) : AnswersWithoutConsumed s t :=
  ⟨[], h, List.not_mem_nil⟩

theorem AnswersWithoutConsumed.trans {s t u : State} (hst : AnswersWithoutConsumed s t)
    (htu : AnswersWithoutConsumed t u) : AnswersWithoutConsumed s u := by
  obtain ⟨old, hold, hcold⟩ := hst
  obtain ⟨new, hnew, hcnew⟩ := htu
  refine ⟨new ++ old, by rw [hnew, hold, List.append_assoc], fun hc => ?_⟩
  exact (List.mem_append.1 hc).elim hcnew hcold

/-- Only a tree operation in phase CONSUMED gives status CONSUMED. -/
theorem Effect.answersWithoutConsumed {i : Instr} {s t : State} (h : Effect s i t)
    (hproper : opOf i ≠ 0b00 → s.phase = .buildable) : AnswersWithoutConsumed s t := by
  obtain ⟨r, hresponses, hpossible⟩ := h.status_possible
  refine ⟨[r], hresponses, fun hc => ?_⟩
  obtain rfl := List.mem_singleton.1 hc
  obtain ⟨hop, hp⟩ : opOf i ≠ 0b00 ∧ s.phase = .consumed := hpossible
  rw [hproper hop] at hp
  cases hp

/-- Proper use lasts: after a step the moves still to come are proper use in the new phase, and the step has not answered
CONSUMED. -/
theorem properUse_step {s t : State} (hs : properUse s.phase s.inputs = true) (h : step s = .next t) :
    properUse t.phase t.inputs = true ∧ AnswersWithoutConsumed s t := by
  rcases step_cases h with ⟨-, rfl⟩ | ⟨rest, hi, rfl⟩ | ⟨w, a, rest, hi, h⟩
  · exact ⟨hs, .of_eq rfl⟩
  · rw [hi, properUse_reset] at hs
    exact ⟨hs, .of_eq rfl⟩
  · rw [hi, properUse_command] at hs
    obtain ⟨hproper, hrest⟩ := hs
    have heffect : Effect (accept s a rest) (decode w) t := exec_effect h
    refine ⟨?_, heffect.answersWithoutConsumed hproper⟩
    rw [heffect.phase_eq, heffect.inputs_eq]
    exact hrest

/-- A run of one step more takes a step, which completes, and goes on from there. -/
theorem exists_step_of_run_succ {n : Nat} {s t : State} (h : core.run (n + 1) s = .next t) :
    ∃ u, step s = .next u ∧ core.run n u = .next t := by
  obtain ⟨u, hstep⟩ := everyStepCompletes s
  rw [run_succ_of_step n hstep] at h
  exact ⟨u, hstep, h⟩

/-- Settles O37, by induction on the number of steps: `properUse_step` hands its premise on to the rest of the run. -/
theorem properUseNeverMeetsConsumed : Obligations.ProperUseNeverMeetsConsumed := by
  intro n
  induction n with
  | zero =>
    intro s t _ h
    cases h
    exact AnswersWithoutConsumed.of_eq rfl
  | succ n ih =>
    intro s t hs h
    obtain ⟨u, hstep, hrun⟩ := exists_step_of_run_succ h
    obtain ⟨hu, hsu⟩ := properUse_step hs hstep
    exact hsu.trans (ih u t hu hrun)

end Sys2Proof.Machine
